-- ==== Sys2Proof/Word.lean ====
section
/-! DEFINITION. The words and small types every other file uses: channel values, colors, items,
micro-operations, schedules, the result of a write and the event alphabet (spec/00_scope.md R7). -/

namespace Sys2Proof

/-- An unsigned 8-bit channel value, 0 to 255 (R7). -/
abbrev Byte := BitVec 8

/-- The word `item[24:0]` that answers a fetch at port level (R56). -/
abbrev ItemWord := BitVec 25

/-- A schedule stored as five 2-bit micro-operation codes, the first in bits 9:8 (R57). -/
abbrev ScheduleWord := BitVec 10

/-- A color `(r, g, b)`, written in that order whatever the order on the wire (R7). -/
structure Color where
  r : Byte
  g : Byte
  b : Byte
deriving DecidableEq, Repr, Inhabited

/-- The micro-operations a schedule is made of: wait, drive high, drive low (R7). `F` is never part
of a schedule (R57). -/
inductive Uop where
  | w
  | h
  | l
deriving DecidableEq, Repr

/-- The schedule of one symbol: five micro-operations, numbered 0 to 4 as in `SYM(ch, i, u)` (R12). -/
structure Schedule where
  u0 : Uop
  u1 : Uop
  u2 : Uop
  u3 : Uop
  u4 : Uop
deriving DecidableEq, Repr

namespace Schedule

/-- The five micro-operations in order. -/
def toList (s : Schedule) : List Uop := [s.u0, s.u1, s.u2, s.u3, s.u4]

/-- Micro-operation number `u` of the schedule (R12). -/
def op (s : Schedule) (u : Fin 5) : Uop :=
  match u with
  | 0 => s.u0
  | 1 => s.u1
  | 2 => s.u2
  | 3 => s.u3
  | 4 => s.u4

end Schedule

/-- The result a `done` event carries: one inhabitant, because the set of error values the block can
report is empty (R112; 93_implementation_defined.md U8). -/
inductive Result where
  | ok
deriving DecidableEq, Repr

/-- The event alphabet of a run (R7). -/
inductive Event where
  /-- construction -/
  | new
  /-- a write transaction begins -/
  | start
  /-- `F(c)` for `some c`, `F(end)` for `none` -/
  | fetched (answer : Option Color)
  /-- `T`, with the fault mark R123 asks for when the wait reported a failure -/
  | tick (failed : Bool)
  /-- `H` -/
  | high
  /-- `L` -/
  | low
  /-- `done(result)` -/
  | done (result : Result)
deriving DecidableEq, Repr

end Sys2Proof
end

