-- ==== Sys2Proof/Config.lean ====
section
/-! DEFINITION. What is fixed when the block is built (spec/00_scope.md R5), and the
free values the spec leaves open, each an opaque constant with no body. -/

namespace Sys2Proof

/-- `VARIANT`, chosen at build time (R5, R15, R60). -/
inductive Variant where
  | std
  | deg
deriving DecidableEq, Repr

/-- `SYMTAB[DEG]`: exactly two tables meet the constraints of R90. A raw table is checked and turned
into one of them, or refused, by `Sys2Proof.Machine.degTableOf`. -/
inductive DegTable where
  /-- the decided default: only the 0 symbol moves (D6) -/
  | zeroShifts
  /-- the recorded alternative: both symbols move (D6) -/
  | bothShift
deriving DecidableEq, Repr

/-- A channel of a color (R9). -/
inductive Channel where
  | red
  | green
  | blue
deriving DecidableEq, Repr

/-- `c.r`, `c.g` or `c.b` (R7). -/
def Color.channel (c : Color) : Channel → Byte
  | .red => c.r
  | .green => c.g
  | .blue => c.b

/-- What the toggle latency of a platform is the latency of (R5, R85, R156). -/
inductive Edge where
  /-- from an `H` to the rising edge -/
  | rise
  /-- from an `L` to the falling edge -/
  | fall
  /-- from an `H` to the `L` that follows with no tick between: the width of the degraded 0 pulse -/
  | pulse
deriving DecidableEq, Repr

/-- A platform's toggle latencies in nanoseconds; every edge is later than its tick (R156). DESIGN CHOICE
(assumption 12): one figure for each kind of edge, and the width of a pulse with no tick above 0 too. -/
structure ToggleLatency where
  rise : ℚ
  fall : ℚ
  pulse : ℚ
  positive : 0 < rise ∧ 0 < fall ∧ 0 < pulse
deriving DecidableEq, Repr

/-- The latency of an edge. -/
def ToggleLatency.of (t : ToggleLatency) : Edge → ℚ
  | .rise => t.rise
  | .fall => t.fall
  | .pulse => t.pulse

/-- The parameters of one block, each with the value this hardware takes as its default; nothing in it
changes while the block exists (R5, R15). `FAULT_ENV` is the environment's and stands in the state. The
ranges other than that of `GAP_TICKS` are the model's (DESIGN CHOICE, assumption 15). -/
structure Config where
  /-- `VARIANT` -/
  variant : Variant := .std
  /-- `SYMTAB[DEG]`, used when `variant` is `deg` -/
  degTable : DegTable := .zeroShifts
  /-- `SYM_TICKS` -/
  symTicks : Nat := 3
  /-- `BITS` -/
  bits : Nat := 8
  /-- `CHANNELS` -/
  channels : Nat := 3
  /-- `CHANNEL_ORDER` -/
  channelOrder : List Channel := [.green, .red, .blue]
  /-- `GAP_TICKS` -/
  gapTicks : Nat := 900
  /-- `TICK_HZ`: the rate the environment must supply; the block cannot check it (R5, R145) -/
  tickHz : Nat := 3000000
  /-- `TOGGLE_LATENCY`: `none` where it is open, as it is for this hardware (R5, D15) -/
  toggleLatency : Option ToggleLatency := none
  /-- `STRICT_FAULTS` -/
  strictFaults : Bool := false
  /-- every schedule of `SYMTAB` has three waits, and `SYMTAB[STD]` is no parameter (R87, R90) -/
  symTicks_eq : symTicks = 3 := by decide
  /-- `i` has three bits and a channel value eight (R12, R13) -/
  bits_range : 1 ≤ bits ∧ bits ≤ 8 := by decide
  /-- a color has three channels, and there is no fourth (R12, R32, R59 (e)) -/
  channels_range : 1 ≤ channels ∧ channels ≤ 3 := by decide
  /-- the order names `CHANNELS` channels -/
  channels_eq : channelOrder.length = channels := by decide
  /-- `GAP_TICKS` is at least 1 (R5, D5) -/
  gapTicks_pos : 0 < gapTicks := by decide
  /-- a timer ticks -/
  tickHz_pos : 0 < tickHz := by decide
  /-- the strict mode is not offered (R125, U6) -/
  strictFaults_off : strictFaults = false := by rfl
deriving DecidableEq, Repr

/-- A length of time that a claim could be about (R19, R154). -/
inductive Span where
  /-- how long a wait blocks -/
  | wait
  /-- how long a frame of `n` colors lasts -/
  | frame (n : Nat)
deriving DecidableEq, Repr

namespace Config

/-- The build this hardware takes (R5). -/
def standard : Config := {}

/-- `BITS`, `CHANNELS` and `CHANNEL_ORDER` have the values this hardware takes (R5). -/
abbrev wireFormat (c : Config) : Prop := c.bits = 8 ∧ c.channelOrder = [.green, .red, .blue]

/-- The micro-operations of one symbol: its waits, its `H` and its `L` (R87). -/
def symOps (c : Config) : Nat := c.symTicks + 2

/-- The bits a color is sent as: 24 in the build this hardware takes (R34). -/
def colorBitCount (c : Config) : Nat := c.bits * c.channels

/-- The ticks a color takes: 72 in the build this hardware takes (R50). -/
def colorTicks (c : Config) : Nat := c.symTicks * c.colorBitCount

/-- FREE VALUE (U5, U9; assumption 3). The level on the wire while the block has not driven it, or
after a failed drive, as a function of the whole history so far (`State.log`): any value at every moment. -/
opaque unknownLevel : List Event → Bool

/-- FREE VALUE (U4; assumption 4). Whether a wait that reported a failure consumed a real tick of the
timer, as a function of the history before it (`State.log`). -/
opaque failedWaitTookTick : List Event → Bool

/-- FREE VALUE (R114; assumption 6). The colors of a source that never ends, by position. -/
opaque endlessColor : Nat → Color

/-- FREE VALUE, `TOGGLE_LATENCY` where it is open (R5, R156, D15; assumption 12), in nanoseconds:
"variant-dependent", one for each kind of edge. `Sys2Proof.Machine.latencyNs` holds it above 0. -/
opaque openLatency : Variant → Edge → ℚ

/-- FREE VALUE (R19, U16; assumption 13). The timer's phase when a wait is called, as a function of the
history before it (`State.log`); `Sys2Proof.Machine.phase` holds it to the range R19 gives, and
`Sys2Proof.Machine.interval0` takes it at the `start` of the transaction. -/
opaque timerPhase : List Event → ℚ

/-- FREE VALUE (R123, U4; assumption 4). A time in nanoseconds of a run in which a wait fails, of which
nothing may be claimed: a value of its own for each build, each thing measured and each history
(`State.log`). -/
opaque unknownTime : Config → Span → List Event → ℚ

end Config

/-- What a builder asks for, before any check: raw schedule words for the degraded table and the
options the spec says to refuse (R59 (c), R90, U6, U12). -/
structure BuildOptions where
  variant : Variant
  /-- the schedule word of the degraded 0 symbol -/
  deg0 : ScheduleWord
  /-- the schedule word of the degraded 1 symbol -/
  deg1 : ScheduleWord
  gapTicks : Nat
  /-- `STRICT_FAULTS`, which is not offered (R125) -/
  strictFaults : Bool
  symTicks : Nat := 3
  bits : Nat := 8
  channels : Nat := 3
  channelOrder : List Channel := [.green, .red, .blue]
  tickHz : Nat := 3000000
  toggleLatency : Option ToggleLatency := none
deriving DecidableEq, Repr

end Sys2Proof
end

