-- ==== Sys2Proof/Syntax.lean ====
section
/-! DEFINITION. The operations of the block: one constructor per row of spec/opcode_table.json, in the
table's order (spec/30_encoding.md R58). -/

namespace Sys2Proof

/-- The operations of the block (R58). -/
inductive Instr where
  /-- `NEW`, construction (R101) -/
  | new
  /-- `WRITE`, one write transaction; its colors are reached through the source (R102) -/
  | write
  /-- `COLOR c`, send one color (R103) -/
  | color (c : Color)
  /-- `END`, the sequence is exhausted (R104) -/
  | endSeq
  /-- `GAP`, the reset gap (R105) -/
  | gap
  /-- `BYTE v`, the document's encode_byte (R86) -/
  | byte (v : Byte)
  /-- `SYM1.STD` (R82) -/
  | sym1Std
  /-- `SYM0.STD` (R83) -/
  | sym0Std
  /-- `SYM1.DEG` (R84) -/
  | sym1Deg
  /-- `SYM0.DEG` (R85) -/
  | sym0Deg
  /-- `W`, wait for the next tick (R71) -/
  | w
  /-- `H`, drive the pin high (R72) -/
  | h
  /-- `L`, drive the pin low (R73) -/
  | l
  /-- `F`, fetch the next item (R74) -/
  | f
deriving DecidableEq, Repr

end Sys2Proof
end

