-- ==== Sys2Proof/WellFormed.lean ====
section
/-! DEFINITION. The checks on terms: schedules (spec/41_bit_encoder.md R87), build options
(spec/00_scope.md R5) and instructions (spec/30_encoding.md R59). -/

namespace Sys2Proof

/-- How many waits stand between the `H` and the `L` of a list of micro-operations: the symbol's high
time in ticks (R89). `none` until the `H` is met, then the count so far. -/
def highTicksFrom : Option Nat → List Uop → Nat
  | none, [] => 0
  | some n, [] => n
  | none, .h :: us => highTicksFrom (some 0) us
  | none, _ :: us => highTicksFrom none us
  | some n, .w :: us => highTicksFrom (some (n + 1)) us
  | some n, .l :: _ => n
  | some n, .h :: us => highTicksFrom (some n) us

/-- The high time of a symbol in ticks, counted between its `H` and its `L` (R89). -/
def Schedule.highTicks (s : Schedule) : Nat := highTicksFrom none s.toList

/-- R87 (a) to (c): three `W`, one `H`, one `L`; begins `W H`; so the `H` comes before the `L`. -/
def Schedule.wf (s : Schedule) : Bool :=
  s.toList.count .w == 3 && s.toList.count .h == 1 && s.toList.count .l == 1
    && s.u0 == .w && s.u1 == .h

/-- The ranges of the parameters that are neither schedule, gap nor strict mode (`Config`). -/
abbrev BuildOptions.inRange (o : BuildOptions) : Prop :=
  o.symTicks = 3 ∧ (1 ≤ o.bits ∧ o.bits ≤ 8) ∧ (1 ≤ o.channels ∧ o.channels ≤ 3)
    ∧ o.channelOrder.length = o.channels ∧ 0 < o.tickHz

/-- The options that are no schedule: a gap of at least one tick (D5), no strict mode, which is not offered
(R125, U6), and the other parameters in their ranges. -/
def BuildOptions.wf (o : BuildOptions) : Bool :=
  decide (0 < o.gapTicks) && !o.strictFaults && decide o.inRange

/-- Every instruction term is well formed: every 8-bit channel value and every color is legal, none is
reserved (R59 (a)), and no other operation has an operand (R55). The widths are in the types. -/
def Instr.wf : Instr → Bool
  | .new => true
  | .write => true
  | .color _ => true
  | .endSeq => true
  | .gap => true
  | .byte _ => true
  | .sym1Std => true
  | .sym0Std => true
  | .sym1Deg => true
  | .sym0Deg => true
  | .w => true
  | .h => true
  | .l => true
  | .f => true

end Sys2Proof
end

