-- ==== Sys2Proof/Decode.lean ====
section
/-! DEFINITION. The encodings (spec/30_encoding.md R56 to R58, spec/opcode_table.json): an operation is
selected by the PLACE a word is presented at and the word's bits. The decoder is total and rejects by
name; the encoder stands after it. -/

namespace Sys2Proof

/-- The places an operation's word is presented at (R58: "The `encoding` of a row is the bit pattern
at the place its `fields` name"). -/
inductive Place where
  /-- the `new` strobe, 1 bit (R56) -/
  | newStrobe
  /-- the `start` strobe, 1 bit (R56) -/
  | startStrobe
  /-- `item[24:0]`, the answer to a fetch, 25 bits (R56) -/
  | item
  /-- the load value of the gap counter, 10 bits (R105) -/
  | gapCount
  /-- the channel value handed to the Bit Encoder, 8 bits (R86) -/
  | channel
  /-- the data bit handed to the symbol table of one variant, 1 bit (R58) -/
  | symBit (v : Variant)
  /-- one 2-bit micro-operation code of a schedule word (R57) -/
  | uopCode
  /-- the `fetch` strobe, 1 bit (R56) -/
  | fetchStrobe
deriving DecidableEq, Repr

/-- How many bits a word has at a place (R56, R57, spec/opcode_table.json). -/
def Place.width : Place → Nat
  | .newStrobe => 1
  | .startStrobe => 1
  | .item => 25
  | .gapCount => 10
  | .channel => 8
  | .symBit _ => 1
  | .uopCode => 2
  | .fetchStrobe => 1

/-- Why a word selects no operation. -/
inductive Reject where
  /-- the word has a bit above the width of its place -/
  | tooWide
  /-- a strobe that is 0 requests nothing (R58 names the strobe value 1 for each strobe) -/
  | strobeLow
  /-- micro-operation code `01` is reserved (R57, R59 (c)) -/
  | reservedCode
  /-- the gap counter's load value is `GAP_TICKS = 900` and no other (R105) -/
  | otherGapCount
deriving DecidableEq, Repr

/-- `item[24:0]`: bit 24 set means end of sequence, the other 24 bits then ignored; else red, green and
blue from the top byte down (R56, R59 (b)). -/
def decodeItem (w : ItemWord) : Option Color :=
  if w.getLsbD 24 then none
  else some ⟨w.extractLsb' 16 8, w.extractLsb' 8 8, w.extractLsb' 0 8⟩

/-- The item word of a color, in the caller's layout: red in the top byte (R56). -/
def colorWord (c : Color) : ItemWord := 0#1 ++ c.r ++ c.g ++ c.b

/-- The item word of the end mark with its ignored bits 0 (R56; spec/95_test_vectors.md P1). -/
def endWord : ItemWord := 0x1000000#25

/-- The micro-operation of a 2-bit code (R57); `01` is reserved. -/
def decodeUop (c : BitVec 2) : Option Uop :=
  if c = 0b00#2 then some .w
  else if c = 0b10#2 then some .l
  else if c = 0b11#2 then some .h
  else none

/-- The 2-bit code of a micro-operation (R57). -/
def encodeUop : Uop → BitVec 2
  | .w => 0b00#2
  | .l => 0b10#2
  | .h => 0b11#2

/-- The five codes of a schedule word, the first in bits 9:8 (R57). -/
def decodeSchedule (w : ScheduleWord) : Option Schedule :=
  match decodeUop (w.extractLsb' 8 2), decodeUop (w.extractLsb' 6 2), decodeUop (w.extractLsb' 4 2),
    decodeUop (w.extractLsb' 2 2), decodeUop (w.extractLsb' 0 2) with
  | some a, some b, some c, some d, some e => some ⟨a, b, c, d, e⟩
  | _, _, _, _, _ => none

/-- The schedule word of a schedule (R57). -/
def encodeSchedule (s : Schedule) : ScheduleWord :=
  encodeUop s.u0 ++ encodeUop s.u1 ++ encodeUop s.u2 ++ encodeUop s.u3 ++ encodeUop s.u4

/-- The core instruction of a micro-operation. -/
def Uop.instr : Uop → Instr
  | .w => .w
  | .h => .h
  | .l => .l

/-- A strobe's word: 1 requests the operation, 0 requests nothing (R58). -/
def decodeStrobe (i : Instr) (w : Nat) : Except Reject Instr :=
  if w = 1 then .ok i else .error .strobeLow

/-- The operation a word selects at a place (R58), total on every word of every width. -/
def decode (p : Place) (w : Nat) : Except Reject Instr :=
  if 2 ^ p.width ≤ w then .error .tooWide
  else
    match p with
    | .newStrobe => decodeStrobe .new w
    | .startStrobe => decodeStrobe .write w
    | .item =>
      match decodeItem (BitVec.ofNat 25 w) with
      | some c => .ok (.color c)
      | none => .ok .endSeq
    | .gapCount => if w = 0b1110000100 then .ok .gap else .error .otherGapCount
    | .channel => .ok (.byte (BitVec.ofNat 8 w))
    | .symBit .std => if w = 1 then .ok .sym1Std else .ok .sym0Std
    | .symBit .deg => if w = 1 then .ok .sym1Deg else .ok .sym0Deg
    | .uopCode =>
      match decodeUop (BitVec.ofNat 2 w) with
      | some u => .ok u.instr
      | none => .error .reservedCode
    | .fetchStrobe => decodeStrobe .f w

/-- The place and the word of an operation (R56 to R58). -/
def encode : Instr → Place × Nat
  | .new => (.newStrobe, 1)
  | .write => (.startStrobe, 1)
  | .color c => (.item, (colorWord c).toNat)
  | .endSeq => (.item, endWord.toNat)
  | .gap => (.gapCount, 0b1110000100)
  | .byte v => (.channel, v.toNat)
  | .sym1Std => (.symBit .std, 1)
  | .sym0Std => (.symBit .std, 0)
  | .sym1Deg => (.symBit .deg, 1)
  | .sym0Deg => (.symBit .deg, 0)
  | .w => (.uopCode, (encodeUop .w).toNat)
  | .h => (.uopCode, (encodeUop .h).toNat)
  | .l => (.uopCode, (encodeUop .l).toNat)
  | .f => (.fetchStrobe, 1)

/-- DESIGN CHOICE (assumption 11). The place a word of the operation table is presented at when only
its width in whole bytes is known. The table's one-bit words are the same at several places, so a word
of one byte is read as a micro-operation code where it is one (0, 2, 3), as the `start` strobe where it
is 1 (the reserved code; `start` is the strobe that selects an operation right after reset, R141), else
as a channel value. -/
def tablePlace (nbits w : Nat) : Place :=
  if nbits ≤ 8 then
    if w = 1 then .startStrobe else if w < 4 then .uopCode else .channel
  else if nbits ≤ 16 then .gapCount
  else .item

/-- The instruction the decoder reads from a word of the operation table (`tablePlace`). -/
def decodeTableWord (nbits w : Nat) : Option Instr :=
  match decode (tablePlace nbits w) w with
  | .ok i => some i
  | .error _ => none

end Sys2Proof
end

