-- ==== Sys2Proof/Machine/State.lean ====
section
/-! DEFINITION. The state of the machine (spec/10_state.md), the environment that acts on it, the
reasons a step can stop, and the state before construction (R22). -/

namespace Sys2Proof.Machine

/-- The sequencer state, the block's program counter (R12). -/
inductive Seq where
  /-- `UNBOUND`: no driver instance exists -/
  | unbound
  /-- `IDLE`: no transaction in flight -/
  | idle
  /-- `FETCH`: the next action is to fetch an item -/
  | fetch
  /-- `SYM(ch, i, u)`: the next action is micro-operation `u` of the symbol for bit `i` of channel `ch`
  (0 green, 1 red, 2 blue) of the latched color -/
  | sym (ch : Fin 3) (i : Fin 8) (u : Fin 5)
  /-- `GAP(n)`: the next action is a tick wait of the gap, `n` remain, this one included; `n` is in
  1..`GAP_TICKS` in every run (`Sys2Proof.Safety.Inv`) -/
  | gap (n : Nat)
deriving DecidableEq, Repr

/-- Which of the coming calls of one capability report a failure: the listed ones first, then every
later one alike (`FAULT_ENV`, R5, D8). -/
structure FailPlan where
  /-- the status of the next calls, `true` for a failure -/
  listed : List Bool
  /-- the status of every call after the listed ones -/
  after : Bool
deriving DecidableEq, Repr

/-- `FAULT_ENV`: the statuses of the three capability calls that can fail (R120). -/
structure FaultEnv where
  /-- `Wait()` -/
  wait : FailPlan
  /-- `PinHigh()` -/
  high : FailPlan
  /-- `PinLow()` -/
  low : FailPlan
deriving DecidableEq, Repr

/-- The default environment: the capabilities never fail (R5, D8). -/
def FaultEnv.never : FaultEnv := ⟨⟨[], false⟩, ⟨[], false⟩, ⟨[], false⟩⟩

/-- What the color source answers once its listed words are used up. -/
inductive Tail where
  /-- the sequence is exhausted: it answers the end mark -/
  | ends
  /-- a source that never ends (R114): its `n`-th further answer is the free value
  `Config.endlessColor n` -/
  | endless (n : Nat)
deriving DecidableEq, Repr

/-- The color source: the item words it will still answer, in order, one sequence after another with
its end mark between (R56, R74; spec/95_test_vectors.md P3). -/
structure Source where
  words : List ItemWord
  tail : Tail
deriving DecidableEq, Repr

/-- The requests R113 (d) names that no version of the block accepts. -/
inductive Forbidden where
  | pause
  | resume
  | cancel
  | timeOut
deriving DecidableEq, Repr

/-- What the host does at a step (R6, R56), and what a test bench does. -/
inductive Stimulus where
  /-- the `new` strobe is 1 during this step -/
  | new
  /-- the `start` strobe is 1 during this step -/
  | start
  /-- no strobe during this step: the block acts if a transaction is in flight; else only time passes, and
  a tick that fires meanwhile is not consumed (R115) -/
  | pass
  /-- no strobe until `busy` is 0 -/
  | awaitDone
  /-- a request that has no form at the ports (R113 (d)) -/
  | forbidden (k : Forbidden)
  /-- a test bench presents the word of one operation by itself (R61: "when a vector exercises them
  alone"); the operation runs whole -/
  | alone (p : Place) (w : Nat)
deriving DecidableEq, Repr

/-- The block raises no fault: every failure its capabilities report is discarded where it occurs and
control goes to the next micro-operation (R120, R122). No step answers a fault, so this type is empty;
nobody raises one (safe: the hardware raises none either). -/
inductive Fault where
deriving DecidableEq, Repr

/-- Why a step has no transition. -/
inductive Refusal where
  /-- raised by `exec` for an instruction that has no meaning yet; no arm is in this state (safe) -/
  | notModelled (mnemonic : String)
  /-- raised by NEW when `seq` is not `UNBOUND`: the state has no transition for it (R113 (c); safe) -/
  | newNotUnbound
  /-- raised by WRITE, and by the `start` strobe, when `seq` is not `IDLE`: no transition (R113 (a),
  (b); safe) -/
  | startNotIdle
  /-- raised by a request to pause, resume, cancel or time out (R113 (d); safe) -/
  | noSuchRequest
  /-- raised by `step` when a test bench presents a word that selects no operation at its place (R57,
  R59; safe) -/
  | wordSelectsNothing (why : Reject)
  /-- raised by the sequencer in `GAP(0)`, and in `SYM(ch, i, u)` with `ch` or `i` beyond the build's
  channels or bits: none of them is a sequencer state (R12), and no run reaches one
  (`Sys2Proof.Safety.Inv`; safe) -/
  | seqOutOfRange
  /-- raised by `build` for a degraded table outside the constraints (R59 (c), R90; safe) -/
  | tableRefused
  /-- raised by `build` for a gap of no ticks (R5, D5; safe) -/
  | gapTicksZero
  /-- raised by `build` for another parameter outside its range (R5; assumption 15; safe) -/
  | parameterOutOfRange
  /-- raised by `build` for the strict mode, which is not offered (R125, U6; safe) -/
  | strictFaultsNotOffered
deriving DecidableEq, Repr

/-- The block, its observation state and the environment it acts in. -/
structure State where
  /-- the build-time configuration; no step changes it (R15) -/
  cfg : Config
  /-- the sequencer state (R12) -/
  seq : Seq
  /-- the level the block last drove onto its output pin, `true` high (R11) -/
  pin : Bool
  /-- the block drives the wire and its last drive reported no failure, so the wire carries `pin`; while
  this is `false` the level on the wire is a free value (R22, R124; the model's own field) -/
  pinHeld : Bool
  /-- the color latch (R13) -/
  col : Color
  /-- ghost: the events of the run (R17), the newest first; `State.trace` is the list in the order they
  happened -/
  log : List Event
  /-- ghost: the `T` events since the last `start` event (R17) -/
  tickno : Nat
  /-- ghost: the real ticks of the timer consumed by those waits (R123, U4) -/
  realTicks : Nat
  /-- the environment: which capability calls fail (R5 `FAULT_ENV`) -/
  env : FaultEnv
  /-- the environment: the color source (R6) -/
  source : Source
  /-- the environment: what the host and a test bench will still do, one entry a step (R6) -/
  stim : List Stimulus
deriving DecidableEq, Repr

/-- `trace`: the events of the run in the order they happened (R17). -/
def State.trace (s : State) : List Event := s.log.reverse

/-- The block before construction, in build `c` (R22, R140). `pin`, `col` and the environment are as
assumptions 1, 2 and 5 say; no level is claimed for the wire, since `pinHeld` is `false`. -/
def State.unboundWith (c : Config) : State where
  cfg := c
  seq := .unbound
  pin := false
  pinHeld := false
  col := ⟨0, 0, 0⟩
  log := []
  tickno := 0
  realTicks := 0
  env := .never
  source := ⟨[], .ends⟩
  stim := []

/-- The machine before `NEW`, in the build this hardware takes: the start state of the spec's scripts
(R5, R22, R140; spec/95_test_vectors.md P1 to P5). -/
def State.unbound : State := State.unboundWith Config.standard

/-- The machine right after reset. Reset is construction: `NEW` has driven the pin low and entered
`IDLE` (R22, R141). The log holds what `NEW` did (R101); `col` is as assumption 1 says. -/
def State.reset : State :=
  { State.unbound with
    seq := .idle
    pin := false
    pinHeld := true
    log := [.low, .new] }

end Sys2Proof.Machine
end

