-- ==== Sys2Proof/Machine/Operands.lean ====
section
/-! DEFINITION. Operand assembly (spec/30_encoding.md R55): channels, bits, the symbol table
(spec/41_bit_encoder.md R81) and the lists of micro-operations an operation performs
(spec/42_frame_driver.md R107). -/

namespace Sys2Proof.Machine

/-- `v[i]`, the bit of a channel value (R7, R88). -/
def bitAt (v : Byte) (i : Fin 8) : Bool := v.getLsbD i.val

/-- `chan(col, ch)`: the channel at place `ch` of `CHANNEL_ORDER`, which is green, red, blue (R5, R13, R32);
none where the order has no such place. -/
def chan (cfg : Config) (c : Color) (ch : Fin 3) : Option Byte :=
  cfg.channelOrder[ch.val]?.map c.channel

/-- The bit sent in `SYM(ch, i, u)`, `chan(col, ch)[i]` (R13, R55); none where `ch` or `i` is outside the
range R12 gives, which is no sequencer state. -/
def symBit (cfg : Config) (c : Color) (ch : Fin 3) (i : Fin 8) : Option Bool :=
  if i.val < cfg.bits then (chan cfg c ch).map (bitAt · i) else none

/-- `SYMTAB`, the one normative table of the symbols (R81), with the degraded rows of the table the
build holds (R90, D6). -/
def symtab (d : DegTable) (v : Variant) (bit : Bool) : Schedule :=
  match v, bit with
  | .std, true => ⟨.w, .h, .w, .w, .l⟩
  | .std, false => ⟨.w, .h, .w, .l, .w⟩
  | .deg, false => ⟨.w, .h, .l, .w, .w⟩
  | .deg, true =>
    match d with
    | .zeroShifts => ⟨.w, .h, .w, .w, .l⟩
    | .bothShift => ⟨.w, .h, .w, .l, .w⟩

/-- `SYMTAB[VARIANT][bit]` of a build (R55 (d), R60). -/
def scheduleOf (c : Config) (bit : Bool) : Schedule := symtab c.degTable c.variant bit

/-- `v[n - 1]` down to `v[0]`. -/
def bitsDown (v : Byte) (n : Nat) : List Bool := (List.range n).reverse.map v.getLsbD

/-- The `BITS` bits of a channel value in the order sent, most significant first (R5, R31). -/
def byteBits (cfg : Config) (v : Byte) : List Bool := bitsDown v cfg.bits

/-- The bits of a color in the order sent: green, red, blue (R5, R32, R34). -/
def colorBits (cfg : Config) (c : Color) : List Bool :=
  cfg.channelOrder.flatMap fun k => byteBits cfg (c.channel k)

/-- The micro-operations of a list of data bits. -/
def symbolOps (cfg : Config) (bs : List Bool) : List Uop :=
  bs.flatMap fun b => (scheduleOf cfg b).toList

/-- `Byte(v)` (R86, R107). -/
def byteOps (cfg : Config) (v : Byte) : List Uop := symbolOps cfg (byteBits cfg v)

/-- `Color(c) = Byte(c.g) ++ Byte(c.r) ++ Byte(c.b)`, in `CHANNEL_ORDER` (R103, R107). -/
def colorOps (cfg : Config) (c : Color) : List Uop :=
  cfg.channelOrder.flatMap fun k => byteOps cfg (c.channel k)

/-- `W^GAP_TICKS` (R105). -/
def gapOps (cfg : Config) : List Uop := List.replicate cfg.gapTicks .w

/-- `Frame(cs)` (R107). -/
def frameOps (cfg : Config) (cs : List Color) : List Uop := cs.flatMap (colorOps cfg) ++ gapOps cfg

/-- `SYM(ch, BITS - 1, 0)`, where a channel begins (R106). -/
def channelStart (cfg : Config) (ch : Fin 3) : Seq :=
  .sym ch ⟨cfg.bits - 1, by have := cfg.bits_range; omega⟩ 0

/-- `Next(ch, i, u)`, where the sequencer goes after a micro-operation of a symbol (R106): `u` runs through
the symbol's micro-operations, `i` down to 0, `ch` through the channels. -/
def nextSeq (cfg : Config) (ch : Fin 3) (i : Fin 8) (u : Fin 5) : Seq :=
  if hu : u.val + 1 < cfg.symOps then
    .sym ch i ⟨u.val + 1, by have := cfg.symTicks_eq; unfold Config.symOps at hu; omega⟩
  else if hi : 0 < i.val then .sym ch ⟨i.val - 1, by omega⟩ 0
  else if hc : ch.val + 1 < cfg.channels then
    channelStart cfg ⟨ch.val + 1, by have := cfg.channels_range; omega⟩
  else .fetch

/-- The wire word `W24(c) = (c.g, c.r, c.b)`, green in the top byte (R34). -/
def w24 (c : Color) : BitVec 24 := c.g ++ c.r ++ c.b

/-- `v` shifted left by one `j` times, the bit shifted in taken from `fill`: the shift register a
realisation may use instead of `bitAt` (R13, R88). -/
def shiftedLeft (v : Byte) (fill : Nat → Bool) : Nat → Byte
  | 0 => v
  | j + 1 => (shiftedLeft v fill j).shiftConcat (fill j)

end Sys2Proof.Machine
end

