-- ==== Sys2Proof/Machine/Ops.lean ====
section
/-! DEFINITION. The named operations every meaning is built from: the capability calls of
spec/00_scope.md R8 with their discarded statuses (spec/60_exceptions.md R122 to R124), the four
micro-operations (spec/40_primitives.md R71 to R74), `Exec` on a list of them (R75), and the pieces of
a transaction. The block takes no exception and returns from none: a failure status is dropped inside
these operations and nowhere else. -/

namespace Sys2Proof.Machine

/-- The status of the next call, `true` for a failure, and the plan after it. -/
def FailPlan.pop (p : FailPlan) : Bool × FailPlan :=
  match p.listed with
  | [] => (p.after, p)
  | b :: bs => (b, { p with listed := bs })

/-- `Fetch()`: the source's next answer as an item word, and the source after it (R8, R74). A source
whose words are used up answers the end mark, or never ends (R114). -/
def Source.pop (src : Source) : ItemWord × Source :=
  match src.words with
  | w :: ws => (w, { src with words := ws })
  | [] =>
    match src.tail with
    | .ends => (endWord, src)
    | .endless n => (colorWord (Config.endlessColor n), { src with tail := .endless (n + 1) })

/-- `emit e` (R7). -/
def emit (e : Event) (s : State) : State := { s with log := e :: s.log }

/-- `W` (R71): the status is discarded and the wait counts as done (R123); the real tick count grows
by the free value where the wait failed (U4). -/
def opW (s : State) : State :=
  let failed := (s.env.wait.pop).1
  { s with
    env := { s.env with wait := (s.env.wait.pop).2 }
    tickno := s.tickno + 1
    realTicks := s.realTicks
      + (if failed then (if Config.failedWaitTookTick s.log then 1 else 0) else 1)
    log := .tick failed :: s.log }

/-- `H` (R72): the status is discarded; after a failure the wire's level is open (R124). DESIGN CHOICE
(assumption 9): run alone in `UNBOUND` it drives the pin as in any state, and the wire then carries the
level driven, although no driver instance owns the pin there (R12, R22). -/
def opH (s : State) : State :=
  { s with
    env := { s.env with high := (s.env.high.pop).2 }
    pin := true
    pinHeld := !(s.env.high.pop).1
    log := .high :: s.log }

/-- `L` (R73): as `H`, in `UNBOUND` too (DESIGN CHOICE, assumption 9). -/
def opL (s : State) : State :=
  { s with
    env := { s.env with low := (s.env.low.pop).2 }
    pin := false
    pinHeld := !(s.env.low.pop).1
    log := .low :: s.log }

/-- One micro-operation of a schedule (R70). -/
def doUop (u : Uop) (s : State) : State :=
  match u with
  | .w => opW s
  | .h => opH s
  | .l => opL s

/-- `Exec`, the list performed from left to right (R75). -/
def perform : List Uop → State → State
  | [], s => s
  | u :: us, s => perform us (doUop u s)

/-- `F` (R74): the answer, and the state after it. `col` is written only when a color came back, all
three fields at once; the source advances by one item (R36). -/
def fetch (s : State) : Option Color × State :=
  match decodeItem (s.source.pop).1 with
  | some c =>
    (some c, { s with source := (s.source.pop).2, col := c, log := .fetched (some c) :: s.log })
  | none => (none, { s with source := (s.source.pop).2, log := .fetched none :: s.log })

/-- The symbol of one bit in one variant (R82 to R85). -/
def sendSymbol (v : Variant) (bit : Bool) (s : State) : State :=
  perform (symtab s.cfg.degTable v bit).toList s

/-- `BYTE v` (R86). -/
def sendByte (v : Byte) (s : State) : State := perform (byteOps s.cfg v) s

/-- `COLOR c`: `BYTE` of each channel, in `CHANNEL_ORDER` (R103). -/
def sendColor (c : Color) (s : State) : State :=
  s.cfg.channelOrder.foldl (fun t k => sendByte (c.channel k) t) s

/-- `GAP` (R105): `GAP_TICKS` waits, no pin write. `seq` is the counter (R12); it leaves `GAP(1)` for
`IDLE` (R106). -/
def sendGap (s : State) : State := { perform (gapOps s.cfg) s with seq := .idle }

/-- `END` (R104). -/
def finish (s : State) : State := { emit (.done .ok) (sendGap s) with seq := .idle }

/-- The `start` strobe accepted in `IDLE` (R102, R106). -/
def begin (s : State) : State := { emit .start s with tickno := 0, realTicks := 0, seq := .fetch }

/-- The loop of R102: fetch, send, fetch again, until the source answers the end mark; at most `n`
fetches. `none` where `n` fetches do not meet the end. -/
def sendAll : Nat → State → Option State
  | 0, _ => none
  | n + 1, s =>
    match fetch s with
    | (some c, t) => sendAll n (sendColor c t)
    | (none, t) => some (finish t)

end Sys2Proof.Machine
end

