-- ==== Sys2Proof/Machine/Driver.lean ====
section
/-! DEFINITION. The meanings of the Frame Driver's operations (spec/42_frame_driver.md R101 to R105). -/

namespace Sys2Proof.Machine

/-- `NEW`, construction (R101); in any state but `UNBOUND` there is no step for it (R113 (c)). -/
def execNew (s : State) : Host.Outcome State Fault Refusal :=
  if s.seq = .unbound then .next { opL (emit .new s) with seq := .idle }
  else .refused .newNotUnbound

/-- `WRITE`, one write transaction as the indivisible operation it is for the host (R38, R102); in any
state but `IDLE` there is no step for it (R113 (a), (b)). A source yields its end mark within as many
fetches as it has words and one more, or never: a transaction without an end (R114) is left begun, in
`FETCH`, and the sequencer runs it for ever (DESIGN CHOICE, assumption 6). -/
def execWrite (s : State) : Host.Outcome State Fault Refusal :=
  if s.seq = .idle then
    match sendAll (s.source.words.length + 1) (begin s) with
    | some t => .next t
    | none => .next (begin s)
  else .refused .startNotIdle

/-- `COLOR c`, send one color (R103). -/
def execColor (c : Color) (s : State) : Host.Outcome State Fault Refusal := .next (sendColor c s)

/-- `END`, the sequence is exhausted (R104). -/
def execEnd (s : State) : Host.Outcome State Fault Refusal := .next (finish s)

/-- `GAP`, the reset gap (R105). -/
def execGap (s : State) : Host.Outcome State Fault Refusal := .next (sendGap s)

end Sys2Proof.Machine
end

