-- ==== Sys2Proof/Machine/Encoder.lean ====
section
/-! DEFINITION. The meanings of the Bit Encoder's operations (spec/41_bit_encoder.md R82 to R86). Each
writes `pin` only; where `seq` goes is the sequencer's matter (R106). -/

namespace Sys2Proof.Machine

/-- `SYM1.STD` (R82). -/
def execSym1Std (s : State) : Host.Outcome State Fault Refusal := .next (sendSymbol .std true s)

/-- `SYM0.STD` (R83). -/
def execSym0Std (s : State) : Host.Outcome State Fault Refusal := .next (sendSymbol .std false s)

/-- `SYM1.DEG` (R84): the 1 schedule of the build's degraded table. -/
def execSym1Deg (s : State) : Host.Outcome State Fault Refusal := .next (sendSymbol .deg true s)

/-- `SYM0.DEG` (R85). -/
def execSym0Deg (s : State) : Host.Outcome State Fault Refusal := .next (sendSymbol .deg false s)

/-- `BYTE v`, the document's encode_byte (R86). -/
def execByte (v : Byte) (s : State) : Host.Outcome State Fault Refusal := .next (sendByte v s)

end Sys2Proof.Machine
end

