-- ==== Sys2Proof/Machine/Microops.lean ====
section
/-! DEFINITION. The meanings of the four micro-operations (spec/40_primitives.md R71 to R74). -/

namespace Sys2Proof.Machine

/-- `W`, wait for the next tick (R71). It always completes: the timer is free-running. -/
def execW (s : State) : Host.Outcome State Fault Refusal := .next (opW s)

/-- `H`, drive the pin high (R72). -/
def execH (s : State) : Host.Outcome State Fault Refusal := .next (opH s)

/-- `L`, drive the pin low (R73). -/
def execL (s : State) : Host.Outcome State Fault Refusal := .next (opL s)

/-- `F`, fetch the next item (R74). It cannot fail. Where `seq` goes after it is R106's. -/
def execF (s : State) : Host.Outcome State Fault Refusal := .next (fetch s).2

end Sys2Proof.Machine
end

