-- ==== Sys2Proof/Machine/Dispatch.lean ====
section
/-! DEFINITION. One arm per operation of spec/opcode_table.json, each a direct call of its meaning. -/

namespace Sys2Proof.Machine

def exec (i : Instr) (s : State) : Host.Outcome State Fault Refusal :=
  match i with
  | .new => Sys2Proof.Machine.execNew s
  | .write => Sys2Proof.Machine.execWrite s
  | .color c => Sys2Proof.Machine.execColor c s
  | .endSeq => Sys2Proof.Machine.execEnd s
  | .gap => Sys2Proof.Machine.execGap s
  | .byte v => Sys2Proof.Machine.execByte v s
  | .sym1Std => Sys2Proof.Machine.execSym1Std s
  | .sym0Std => Sys2Proof.Machine.execSym0Std s
  | .sym1Deg => Sys2Proof.Machine.execSym1Deg s
  | .sym0Deg => Sys2Proof.Machine.execSym0Deg s
  | .w => Sys2Proof.Machine.execW s
  | .h => Sys2Proof.Machine.execH s
  | .l => Sys2Proof.Machine.execL s
  | .f => Sys2Proof.Machine.execF s

end Sys2Proof.Machine
end

