-- ==== Sys2Proof/Machine/Flags.lean ====
section
/-! DEFINITION. The status outputs and the output wires (spec/10_state.md R16, spec/30_encoding.md
R56). The block has no condition codes. -/

namespace Sys2Proof.Machine

/-- `busy`: 1 exactly when `seq` is `FETCH`, `SYM(..)` or `GAP(..)` (R16). -/
def busy (s : State) : Bool :=
  match s.seq with
  | .unbound => false
  | .idle => false
  | .fetch => true
  | .sym _ _ _ => true
  | .gap _ => true

/-- The level on the wire: what the block last drove, while it drives and its last drive did not fail;
else any value, for every history anew (R11, R22, R124, U5, U9). -/
def level (s : State) : Bool := if s.pinHeld then s.pin else Config.unknownLevel s.log

/-- The output ports (R56). -/
structure Outputs where
  pin : Bool
  busy : Bool
  /-- the block performs `F` in this step -/
  fetch : Bool
  /-- the block emits `done` in this step -/
  done : Bool
  err : Bool
deriving DecidableEq, Repr

/-- The output ports in a state; the two strobes speak of the action the sequencer performs next (R106),
and `err` is hardwired to 0 (R16). -/
def outputs (s : State) : Outputs where
  pin := level s
  busy := busy s
  fetch := s.seq = .fetch
  done := s.seq = .gap 1
  err := false

end Sys2Proof.Machine
end

