-- ==== Sys2Proof/Machine/Sequencer.lean ====
section
/-! DEFINITION. The sequencer's step function (spec/42_frame_driver.md R106). -/

namespace Sys2Proof.Machine

/-- The action enabled in each state of `seq`, and where `seq` goes (R106). In `UNBOUND` and `IDLE` the
block does nothing until the host acts; a tick that fires meanwhile is not consumed (R115). -/
def sequencer (s : State) : Host.Outcome State Fault Refusal :=
  match s.seq with
  | .unbound => .next s
  | .idle => .next s
  | .fetch =>
    match fetch s with
    | (some _, t) => .next { t with seq := channelStart t.cfg 0 }
    | (none, t) => .next { t with seq := .gap t.cfg.gapTicks }
  | .sym ch i u =>
    match symBit s.cfg s.col ch i with
    | some bit => .next { doUop ((scheduleOf s.cfg bit).op u) s with seq := nextSeq s.cfg ch i u }
    | none => .refused .seqOutOfRange
  | .gap 0 => .refused .seqOutOfRange
  | .gap 1 => .next { emit (.done .ok) (opW s) with seq := .idle }
  | .gap (n + 2) => .next { opW s with seq := .gap (n + 1) }

/-- The `start` strobe: accepted in `IDLE`, else no transition (R106, R113). -/
def acceptStart (s : State) : Host.Outcome State Fault Refusal :=
  if s.seq = .idle then .next (begin s) else .refused .startNotIdle

end Sys2Proof.Machine
end

