-- ==== Sys2Proof/Machine/Step.lean ====
section
/-! DEFINITION. One step of the machine: what the host does at this step (spec/00_scope.md R6,
spec/30_encoding.md R56), then the sequencer's action (spec/42_frame_driver.md R106). -/

namespace Sys2Proof.Machine

/-- One step. The host's next stimulus decides which action it is: a strobe is accepted or has no
transition (R113); with no strobe the sequencer acts; an operation a test bench presents by itself is
decoded at its place and runs whole (R61), in every state of `seq`, `UNBOUND` among them (DESIGN CHOICE,
assumption 9). With no stimulus left the sequencer goes on alone. -/
def step (s : State) : Host.Outcome State Fault Refusal :=
  match s.stim with
  | [] => sequencer s
  | .new :: rest => exec .new { s with stim := rest }
  | .start :: rest => acceptStart { s with stim := rest }
  | .pass :: rest => sequencer { s with stim := rest }
  | .awaitDone :: rest => if busy s then sequencer s else .next { s with stim := rest }
  | .forbidden _ :: _ => .refused .noSuchRequest
  | .alone p w :: rest =>
    match decode p w with
    | .ok i => exec i { s with stim := rest }
    | .error why => .refused (.wordSelectsNothing why)

/-- `s` with a word of the operation table presented alone at the next step, at the place
`tablePlace` reads it, its bits above `nbits` zero. -/
def State.withFetchWord (s : State) (nbits w : Nat) : State :=
  { s with stim := .alone (tablePlace nbits (w % 2 ^ nbits)) (w % 2 ^ nbits) :: s.stim }

end Sys2Proof.Machine
end

