-- ==== Sys2Proof/Machine/Build.lean ====
section
/-! DEFINITION. Building a block: the checks a configuration must pass (spec/41_bit_encoder.md R90,
spec/60_exceptions.md R125, spec/00_scope.md R5) and the block as built, before construction. -/

namespace Sys2Proof.Machine

/-- The constraints of R90 on a degraded table, 0 symbol `z` and 1 symbol `o`: (a) R87 (a) to (c) for
each; (b) the 0 symbol is high for fewer ticks than the 1 symbol; (c) for some bit value the `L` comes
one tick earlier than in `SYMTAB[STD]`, and for none does it come later. -/
def degAdmissible (z o : Schedule) : Bool :=
  let stdHigh (b : Bool) := (symtab .zeroShifts .std b).highTicks
  z.wf && o.wf
    && decide (z.highTicks < o.highTicks)
    && (decide (z.highTicks + 1 = stdHigh false) || decide (o.highTicks + 1 = stdHigh true))
    && decide (z.highTicks ≤ stdHigh false) && decide (o.highTicks ≤ stdHigh true)

/-- The degraded table of two schedule words, or none where a word holds the reserved code (R59 (c)) or
the table breaks a constraint (R90). -/
def degTableOf (w0 w1 : ScheduleWord) : Option DegTable :=
  match decodeSchedule w0, decodeSchedule w1 with
  | some z, some o =>
    if degAdmissible z o then
      if o = symtab .zeroShifts .deg true then some .zeroShifts else some .bothShift
    else none
  | _, _ => none

/-- Building the block: a table outside the constraints, a gap of no ticks, the strict mode and another
parameter outside its range are refused (R59 (c), R90, D5, U6; assumption 15); else the block stands
before construction (R140). -/
def build (o : BuildOptions) : Host.Outcome State Fault Refusal :=
  if o.strictFaults then .refused .strictFaultsNotOffered
  else
    match degTableOf o.deg0 o.deg1 with
    | none => .refused .tableRefused
    | some d =>
      if hg : 0 < o.gapTicks then
        if hr : o.inRange then
          .next (State.unboundWith
            { variant := o.variant, degTable := d, symTicks := o.symTicks, bits := o.bits,
              channels := o.channels, channelOrder := o.channelOrder, gapTicks := o.gapTicks,
              tickHz := o.tickHz, toggleLatency := o.toggleLatency, symTicks_eq := hr.1,
              bits_range := hr.2.1, channels_range := hr.2.2.1, channels_eq := hr.2.2.2.1,
              gapTicks_pos := hg, tickHz_pos := hr.2.2.2.2 })
        else .refused .parameterOutOfRange
      else .refused .gapTicksZero

end Sys2Proof.Machine
end

