-- ==== Sys2Proof/Machine/Script.lean ====
section
/-! DEFINITION. The scripts of spec/30_encoding.md R61 and what they ask of the machine: the host's
stimuli and the words the color source holds. -/

namespace Sys2Proof.Machine

/-- A line of a script after its `variant` line (R61). -/
inductive ScriptLine where
  /-- `new` -/
  | new
  /-- `write c1, .., cN` -/
  | write (cs : List Color)
  /-- `byte v`, `BYTE` alone -/
  | byte (v : Byte)
  /-- `sym b`, a symbol of the script's variant alone -/
  | sym (bit : Bool)
deriving DecidableEq, Repr

/-- A script: its first line chooses the variant (R61). -/
structure Script where
  variant : Variant
  lines : List ScriptLine
deriving DecidableEq, Repr

/-- What a line asks of the host; after `write` it waits for `done` (R61, R113). -/
def ScriptLine.stimuli (v : Variant) : ScriptLine → List Stimulus
  | .new => [.new]
  | .write _ => [.start, .awaitDone]
  | .byte b => [.alone .channel b.toNat]
  | .sym bit => [.alone (.symBit v) bit.toNat]

/-- The items a line expands to: for `write`, one per color, then `END` (R61). -/
def ScriptLine.words : ScriptLine → List ItemWord
  | .new => []
  | .write cs => cs.map colorWord ++ [endWord]
  | .byte _ => []
  | .sym _ => []

/-- The build a script asks for (R5, R61). -/
def Script.config (sc : Script) : Config := { Config.standard with variant := sc.variant }

/-- The machine with a script to run: before construction, the script's stimuli and items ahead of it
(R61; spec/95_test_vectors.md section 8). -/
def Script.load (sc : Script) : State :=
  { State.unboundWith sc.config with
    stim := sc.lines.flatMap (ScriptLine.stimuli sc.variant)
    source := ⟨sc.lines.flatMap ScriptLine.words, .ends⟩ }

end Sys2Proof.Machine
end

