-- ==== Sys2Proof/Machine/Timing.lean ====
section
/-! DEFINITION. Ticks in seconds (spec/00_scope.md R5, spec/10_state.md R19, spec/70_reset_and_hazards.md
R154, R156). No rule of the model depends on it. -/

namespace Sys2Proof.Machine

/-- `TICK_PERIOD` in nanoseconds (R5). -/
def tickPeriodNs (cfg : Config) : ℚ := 1000000000 / cfg.tickHz

/-- The nominal duration of a number of ticks in nanoseconds (R154). -/
def nominalNs (cfg : Config) (ticks : Nat) : ℚ := ticks * tickPeriodNs cfg

/-- `TOGGLE_LATENCY` of an edge in nanoseconds: the platform's figure where the build gives one, else the
free value of its variant (R5, R156, D15). DESIGN CHOICE (assumption 12): one figure for each kind of edge,
the width of a pulse with no tick in it among them, and each above 0. -/
def latencyNs (cfg : Config) (e : Edge) : ℚ :=
  match cfg.toggleLatency with
  | some t => t.of e
  | none => if 0 < Config.openLatency cfg.variant e then Config.openLatency cfg.variant e else 1

/-- The high time of a symbol on the wire: every edge is later than its tick by the toggle latency (R156),
and a pulse with no tick in it is as wide as the platform makes it (R85, R154). It speaks of a symbol in
which no wait fails (R123; assumption 4) and no pin drive fails: after a failed `H` or `L` the wire is at any
level until the next good drive (R124, U5; assumptions 3 and 12), and this figure says nothing of it. DESIGN
CHOICE (assumption 12): one figure for each kind of edge, and above 0. -/
def highTimeNs (cfg : Config) (s : Schedule) : ℚ :=
  if s.highTicks = 0 then latencyNs cfg .pulse
  else nominalNs cfg s.highTicks + latencyNs cfg .fall - latencyNs cfg .rise

/-- The time left until the next tick after a history, in ticks: any value above 0 and at most one tick (R19). -/
def phase (log : List Event) : ℚ :=
  if 0 < Config.timerPhase log ∧ Config.timerPhase log ≤ 1 then Config.timerPhase log else 1

/-- Interval 0 of the transaction in flight, in ticks: from its `start` event to its tick 1 (R7, R155), so one
value from the `start` on, whatever happens before the tick; every action but a wait takes no time (R6). -/
def interval0 (s : State) : ℚ := phase (s.log.dropWhile (· != .start))

/-- The timer has not failed in the run so far and will not: the premise of every claim about real time
(R123, D8). -/
def timerSound (s : State) : Bool :=
  s.log.all (· != .tick true) && !s.env.wait.after && s.env.wait.listed.all (!·)

/-- How long a wait called in a state blocks, in nanoseconds: interval 0 for the first wait of a transaction,
one whole tick for every later wait of it (R19, R71, R155). DESIGN CHOICE (assumption 13): the rest of the
running tick for a wait a test bench runs outside a transaction, of which R19 says no more than that.
DESIGN CHOICE (assumption 4): a free value where a wait of the run fails (R123), a function of the build
and of the history. -/
def waitNs (s : State) : ℚ :=
  if timerSound s then
    (if busy s then (if 0 < s.tickno then 1 else interval0 s) else phase s.log) * tickPeriodNs s.cfg
  else Config.unknownTime s.cfg .wait s.log

/-- The duration in nanoseconds of a frame of `n` colors whose `start` comes in a state: its interval 0, which is
that of its own first wait, and its ticks (R154; assumption 18). DESIGN CHOICE (assumption 4): a free value
where a wait of the run fails (R123), a function of the build, of `n` and of the history. -/
def frameNs (s : State) (n : Nat) : ℚ :=
  if timerSound s then
    nominalNs s.cfg (s.cfg.colorTicks * n + s.cfg.gapTicks) + interval0 (begin s) * tickPeriodNs s.cfg
  else Config.unknownTime s.cfg (.frame n) s.log

end Sys2Proof.Machine
end

