-- ==== Sys2Proof/Machine/Wire.lean ====
section
/-! DEFINITION. What a run looks like on the wire: traces of lists of micro-operations, waveforms
(spec/40_primitives.md R75, spec/00_scope.md R7), the trace of a whole transaction
(spec/42_frame_driver.md R107), the reference receiver (spec/30_encoding.md R62) and the counts of a
trace. Nothing the block does depends on any of it. -/

namespace Sys2Proof.Machine

/-- The event of a micro-operation in the default environment (R75). -/
def eventOf : Uop → Event
  | .w => .tick false
  | .h => .high
  | .l => .low

/-- The trace of a list of micro-operations in the default environment (R75). -/
def traceOf (us : List Uop) : List Event := us.map eventOf

/-- An event without the fault mark of R123. -/
def unmark : Event → Event
  | .tick _ => .tick false
  | .new => .new
  | .start => .start
  | .fetched a => .fetched a
  | .high => .high
  | .low => .low
  | .done r => .done r

/-- The trace of one color as the transaction shows it: its fetch, then its symbols (R107). -/
def colorTrace (cfg : Config) (c : Color) : List Event :=
  .fetched (some c) :: traceOf (colorOps cfg c)

/-- The trace of a transaction that sends `cs`, from `start` to `done` (R107). -/
def frameTrace (cfg : Config) (cs : List Color) : List Event :=
  .start :: cs.flatMap (colorTrace cfg) ++ .fetched none :: traceOf (gapOps cfg) ++ [.done .ok]

/-- The colors a source yields up to its next end mark; none where it never ends (R74, R114). -/
def colorsOf (tail : Tail) : List ItemWord → Option (List Color)
  | [] =>
    match tail with
    | .ends => some []
    | .endless _ => none
  | w :: ws =>
    match decodeItem w with
    | none => some []
    | some c => (colorsOf tail ws).map (c :: ·)

/-- The words of a source after its next end mark. -/
def wordsAfter : List ItemWord → List ItemWord
  | [] => []
  | w :: ws =>
    match decodeItem w with
    | none => ws
    | some _ => wordsAfter ws

/-- The characters of a waveform (R7): low, high, or a pulse shorter than a tick that ends low. -/
inductive Wave where
  | zero
  | one
  | p
deriving DecidableEq, Repr

/-- The character of an interval from its level at the end and its pulse mark (R75). -/
def waveOf (pulse pin : Bool) : Wave := if pulse then .p else if pin then .one else .zero

/-- `Exec`'s waveform (R75), interval by interval. `counted` says that the present interval lies after
tick `k0`, `hHere` that the last `H` fell in it, `pulse` is its pulse mark. -/
def waveformFrom (counted pin hHere pulse : Bool) : List Uop → List Wave
  | [] => if counted then [waveOf pulse pin] else []
  | .w :: us =>
    (if counted then [waveOf pulse pin] else []) ++ waveformFrom true pin false false us
  | .h :: us => waveformFrom counted true true pulse us
  | .l :: us => waveformFrom counted false hHere (pulse || (pin && hHere)) us

/-- The waveform of `Exec(us, p0, k0)`, one character per interval after tick `k0` (R75). -/
def waveform (us : List Uop) (p0 : Bool) : List Wave := waveformFrom false p0 false false us

/-- The micro-operations a trace shows (R75). -/
def opsOf : List Event → List Uop
  | [] => []
  | .tick _ :: es => .w :: opsOf es
  | .high :: es => .h :: opsOf es
  | .low :: es => .l :: opsOf es
  | .new :: es => opsOf es
  | .start :: es => opsOf es
  | .fetched _ :: es => opsOf es
  | .done _ :: es => opsOf es

/-- The waveform of a symbol (R51), from the pin low. -/
def symbolWave (s : Schedule) : List Wave := waveform s.toList false

/-- How many ticks come before the next `L` event, or before the end of the trace (R62). -/
def ticksToLow : List Event → Nat
  | [] => 0
  | .low :: _ => 0
  | .tick _ :: es => ticksToLow es + 1
  | .high :: es => ticksToLow es
  | .new :: es => ticksToLow es
  | .start :: es => ticksToLow es
  | .fetched _ :: es => ticksToLow es
  | .done _ :: es => ticksToLow es

/-- The bits the reference receiver reads: one per `H` event, 1 where two ticks or more come before the
next `L` (R62). -/
def receiveBits : List Event → List Bool
  | [] => []
  | .high :: es => decide (2 ≤ ticksToLow es) :: receiveBits es
  | .tick _ :: es => receiveBits es
  | .low :: es => receiveBits es
  | .new :: es => receiveBits es
  | .start :: es => receiveBits es
  | .fetched _ :: es => receiveBits es
  | .done _ :: es => receiveBits es

/-- The byte of eight bits, the first the most significant (R62); missing bits read as 0. -/
def byteOfBits (bs : List Bool) : Byte :=
  (bs.take 8).foldl (fun v b => v.shiftConcat b) 0#8

/-- Groups of 24 bits as bytes `(g, r, b)` (R62); a last group of fewer bits is left out. `n` bounds
the groups. -/
def colorsOfBits : Nat → List Bool → List Color
  | 0, _ => []
  | n + 1, bs =>
    if bs.length < 24 then []
    else
      ⟨byteOfBits (bs.drop 8), byteOfBits bs, byteOfBits (bs.drop 16)⟩ :: colorsOfBits n (bs.drop 24)

/-- `Receive`, the reference receiver (R62). -/
def receive (trace : List Event) : List Color :=
  colorsOfBits (receiveBits trace).length (receiveBits trace)

/-- Whether an event is a tick, failed or not. -/
def isTick : Event → Bool
  | .tick _ => true
  | .new => false
  | .start => false
  | .fetched _ => false
  | .high => false
  | .low => false
  | .done _ => false

/-- Whether an event is a fetch. -/
def isFetch : Event → Bool
  | .fetched _ => true
  | .tick _ => false
  | .new => false
  | .start => false
  | .high => false
  | .low => false
  | .done _ => false

/-- The tick count after an event, set back by `start` (R17). -/
def tickStep (n : Nat) (e : Event) : Nat :=
  if e = .start then 0 else if isTick e then n + 1 else n

/-- The `T` events since the last `start` event (R17). -/
def ticksSinceStart (trace : List Event) : Nat := trace.foldl tickStep 0

/-- The low time after an event, in ticks: set back by an `L` (R110). -/
def lowStep (n : Nat) (e : Event) : Nat :=
  if e = .low then 0 else if isTick e then n + 1 else n

/-- The whole ticks since the last `L` event of a trace: `K - tL` of a transaction (R110). -/
def ticksSinceLow (trace : List Event) : Nat := trace.foldl lowStep 0

end Sys2Proof.Machine
end

