-- ==== Sys2Proof/Safety.lean ====
section
/-! DEFINITION. What a safe run is, in the terms claims use: invariants of the step
(spec/10_state.md R17, R21, R22, spec/41_bit_encoder.md R87) and the hosts they speak of. -/

namespace Sys2Proof.Safety

open Sys2Proof.Machine

/-- A stimulus a host can give at the ports: not a test bench that runs an operation by itself. -/
def isHost : Stimulus → Bool
  | .new => true
  | .start => true
  | .pass => true
  | .awaitDone => true
  | .forbidden _ => true
  | .alone _ _ => false

/-- Whether everything still to come is what a host can do at the ports. -/
def hostOnly (s : State) : Bool := s.stim.all isHost

/-- The level a list of micro-operations leaves on the pin (R75). -/
def levelAfter : List Uop → Bool → Bool
  | [], p => p
  | .w :: us, p => levelAfter us p
  | .h :: us, _ => levelAfter us true
  | .l :: us, _ => levelAfter us false

/-- The pin level R21 gives for a state: 0 in `IDLE`, `FETCH`, `GAP(n)` and at the first
micro-operation of a symbol; inside a symbol, 1 exactly when its `H` has been performed and its `L`
has not. `UNBOUND` gives none (R22). -/
def boundaryPin (s : State) : Option Bool :=
  match s.seq with
  | .unbound => none
  | .idle => some false
  | .fetch => some false
  | .gap _ => some false
  | .sym ch i u =>
    (symBit s.cfg s.col ch i).map fun bit =>
      levelAfter ((scheduleOf s.cfg bit).toList.take u.val) false

/-- The invariant of a run under a host at the ports, in every fault environment. -/
structure Inv (s : State) : Prop where
  /-- no test bench acts -/
  host : hostOnly s = true
  /-- the pin is as R21 says -/
  pin : ∀ b, boundaryPin s = some b → s.pin = b
  /-- the gap counter is in 1..`GAP_TICKS` (R12) -/
  gap : ∀ n, s.seq = .gap n → 1 ≤ n ∧ n ≤ s.cfg.gapTicks
  /-- `ch` and `i` are in their ranges (R12) -/
  range : ∀ ch i u, s.seq = .sym ch i u → ch.val < s.cfg.channels ∧ i.val < s.cfg.bits
  /-- before `new` there is no pin event -/
  fresh : s.seq = .unbound → s.trace.count .high = 0 ∧ s.trace.count .low = 0
  /-- from `new` on, every `H` has its `L`, one more `L` being `NEW`'s, and one fewer while the pin is
  high (R87) -/
  edges : s.seq ≠ .unbound →
    s.trace.count .high + 1 = s.trace.count .low + s.pin.toNat

/-- The count invariant, of every run: `tickno` is what R17 says, and the real ticks are not more
(U4). -/
structure CountInv (s : State) : Prop where
  tickno : s.tickno = ticksSinceStart s.trace
  real : s.realTicks ≤ s.tickno

/-- The invariant of a run in the default environment under a host at the ports: the wire carries what
the block last drove (R124), and ticks and waits are one to one (R123). -/
structure FaultlessInv (s : State) : Prop where
  host : hostOnly s = true
  env : s.env = .never
  held : s.seq ≠ .unbound → s.pinHeld = true
  real : s.realTicks = s.tickno
  /-- no wait has failed -/
  marks : s.log.all (· != .tick true) = true

/-- A call of a capability with plan `p` reports `failed` and leaves the plan `q`: the listed statuses come
first, then every later one alike (`FAULT_ENV`, R5, D8). -/
def NextStatus (p : FailPlan) (failed : Bool) (q : FailPlan) : Prop :=
  match p.listed with
  | [] => failed = p.after ∧ q = p
  | b :: bs => failed = b ∧ q = ⟨bs, p.after⟩

/-- `t` is `s` after the micro-operations `us`: what `Exec` changes and that it changes nothing else
(R75, R71 to R73), in every fault environment; and the whole of `t` in the default one. -/
structure Performed (us : List Uop) (s t : State) : Prop where
  cfg : t.cfg = s.cfg
  seq : t.seq = s.seq
  col : t.col = s.col
  source : t.source = s.source
  stim : t.stim = s.stim
  pin : t.pin = levelAfter us s.pin
  tickno : t.tickno = s.tickno + us.count .w
  real : s.realTicks ≤ t.realTicks ∧ t.realTicks ≤ s.realTicks + us.count .w
  trace : ∃ es, t.trace = s.trace ++ es ∧ es.map unmark = traceOf us
  default : s.env = .never →
    t = { s with
      pin := levelAfter us s.pin
      pinHeld := s.pinHeld || us.any (· != .w)
      tickno := s.tickno + us.count .w
      realTicks := s.realTicks + us.count .w
      log := (traceOf us).reverse ++ s.log }

/-- The events of a transaction after its `start` (R107). -/
def bodyTrace (cfg : Config) (cs : List Color) : List Event :=
  cs.flatMap (colorTrace cfg) ++ .fetched none :: traceOf (gapOps cfg) ++ [.done .ok]

/-- `t` is `s` after the fetch loop of a transaction that sends `cs` (R102, R107): what the loop changes
and that it changes nothing else, in every fault environment. -/
structure Sent (cs : List Color) (s t : State) : Prop where
  seq : t.seq = .idle
  cfg : t.cfg = s.cfg
  stim : t.stim = s.stim
  source : t.source = { s.source with words := wordsAfter s.source.words }
  col : t.col = cs.getLast?.getD s.col
  pin : t.pin = (if cs = [] then s.pin else false)
  tickno : t.tickno = s.tickno + (s.cfg.colorTicks * cs.length + s.cfg.gapTicks)
  real : s.realTicks ≤ t.realTicks
    ∧ t.realTicks ≤ s.realTicks + (s.cfg.colorTicks * cs.length + s.cfg.gapTicks)
  trace : ∃ es, t.trace = s.trace ++ es ∧ es.map unmark = bodyTrace s.cfg cs
  never : s.env = .never → t.env = .never ∧ t.trace = s.trace ++ bodyTrace s.cfg cs
    ∧ t.realTicks = s.realTicks + (s.cfg.colorTicks * cs.length + s.cfg.gapTicks)
    ∧ t.pinHeld = (s.pinHeld || !cs.isEmpty)

/-- Two states that differ in nothing but what a failing capability can leave: the fault plans, whether
the wire is held, the real ticks, and the fault marks of the trace (R122 to R124). -/
structure SameButFaults (s t : State) : Prop where
  cfg : s.cfg = t.cfg
  seq : s.seq = t.seq
  pin : s.pin = t.pin
  col : s.col = t.col
  tickno : s.tickno = t.tickno
  source : s.source = t.source
  stim : s.stim = t.stim
  log : s.log.map unmark = t.log.map unmark

/-- Two outcomes of a step that differ in nothing but faults. -/
def sameOutcome : Host.Outcome State Fault Refusal → Host.Outcome State Fault Refusal → Prop
  | .next s, .next t => SameButFaults s t
  | .refused a, .refused b => a = b
  | .fault _, _ => False
  | .next _, .refused _ => False
  | .next _, .fault _ => False
  | .refused _, .next _ => False
  | .refused _, .fault _ => False

end Sys2Proof.Safety
end

