-- ==== Sys2Proof/Certificates/Slice0/Obligations.lean ====
section
/-! DEFINITION. The statements for the provers, each named after what it states; OBLIGATIONS.json lists
them with the rules of spec/ they come from. -/

open Sys2Proof Sys2Proof.Machine Sys2Proof.Safety

/-! ## Encodings -/

/-- R56 to R58: decoding the word of an operation at its place gives the operation back, with every
operand at every value. -/
def Obligations.DecodeOfEncodeIsSelf : Prop :=
  ∀ i : Instr, i.wf = true → decode (encode i).1 (encode i).2 = .ok i

/-- R58, R59 (a), (b): a word that selects an operation at a place fits the place and is the operation's
one word there, but that an end item may hold any payload in its 24 low bits. -/
def Obligations.WordsHaveOneMeaning : Prop :=
  ∀ (p : Place) (w : Nat) (i : Instr), decode p w = .ok i →
    w < 2 ^ p.width ∧ (encode i = (p, w) ∨ (i = .endSeq ∧ p = .item ∧ 2 ^ 24 ≤ w))

/-- R56 to R59, R105: exactly these words select nothing: one too wide for its place, a strobe at 0, the
reserved micro-operation code, and a gap count other than 900. -/
def Obligations.RejectedWordsExactly : Prop :=
  ∀ (p : Place) (w : Nat),
    (∃ r, decode p w = .error r) ↔
      (2 ^ p.width ≤ w ∨ (w = 0 ∧ (p = .newStrobe ∨ p = .startStrobe ∨ p = .fetchStrobe))
        ∨ (w = 1 ∧ p = .uopCode) ∨ (w ≠ 900 ∧ p = .gapCount))

/-- spec/opcode_table.json, R57, R58 and spec/95_test_vectors.md section 4: words written out from the
table decode to the operations they stand for. -/
def Obligations.TableWordsDecode : Prop :=
  decode .newStrobe 1 = .ok .new ∧ decode .startStrobe 1 = .ok .write
    ∧ decode .item 0x0123456 = .ok (.color ⟨0x12, 0x34, 0x56⟩)
    ∧ decode .item 0x1000000 = .ok .endSeq ∧ decode .item 0x1FFFFFF = .ok .endSeq
    ∧ decode .gapCount 0b1110000100 = .ok .gap ∧ decode .channel 0b10100101 = .ok (.byte 0xA5)
    ∧ decode (.symBit .std) 1 = .ok .sym1Std ∧ decode (.symBit .std) 0 = .ok .sym0Std
    ∧ decode (.symBit .deg) 1 = .ok .sym1Deg ∧ decode (.symBit .deg) 0 = .ok .sym0Deg
    ∧ decode .uopCode 0b00 = .ok .w ∧ decode .uopCode 0b11 = .ok .h ∧ decode .uopCode 0b10 = .ok .l
    ∧ decode .fetchStrobe 1 = .ok .f

/-- R57: schedule words and schedules correspond one to one, the reserved code apart. -/
def Obligations.ScheduleWordsRoundTrip : Prop :=
  (∀ s : Schedule, decodeSchedule (encodeSchedule s) = some s)
    ∧ ∀ (w : ScheduleWord) (s : Schedule), decodeSchedule w = some s → encodeSchedule s = w

/-! ## Micro-operations -/

/-- R71, R123: `W` always completes, consumes one tick and leaves the pin and everything else of the
block; a failed wait counts as done, and took at most one real tick. -/
def Obligations.TickWaitResult : Prop :=
  ∀ s : State, ∃ (failed : Bool) (real : Nat) (plan : FailPlan),
    exec .w s = .next { s with
      env := { s.env with wait := plan }
      tickno := s.tickno + 1
      realTicks := s.realTicks + real
      log := .tick failed :: s.log }
    ∧ NextStatus s.env.wait failed plan ∧ real ≤ 1 ∧ (failed = false → real = 1)
    ∧ (s.env = .never → failed = false ∧ plan = s.env.wait)

/-- R72, R124: code `11` is `H`; it always completes, drives the pin high whatever it was and whatever
status the pin reports, takes no tick and changes nothing else; no schedule performs it on a high pin. -/
def Obligations.DriveHighResult : Prop :=
  decode .uopCode 0b11 = .ok .h
    ∧ (∀ s : State, ∃ (failed : Bool) (plan : FailPlan),
      exec .h s = .next { s with
        env := { s.env with high := plan }
        pin := true
        pinHeld := !failed
        log := .high :: s.log }
      ∧ NextStatus s.env.high failed plan ∧ (s.env = .never → failed = false ∧ plan = s.env.high))
    ∧ ∀ (d : DegTable) (v : Variant) (b : Bool) (u : Fin 5), (symtab d v b).op u = .h →
      levelAfter ((symtab d v b).toList.take u.val) false = false

/-- R73, R124: code `10` is `L`; it always completes, drives the pin low whatever it was and whatever
status the pin reports, takes no tick and changes nothing else; in the degraded 0 symbol it follows
the `H` with no wait between, and the waveform shows the pulse as `p`; `NEW` performs it once. -/
def Obligations.DriveLowResult : Prop :=
  decode .uopCode 0b10 = .ok .l
    ∧ (∀ s : State, ∃ (failed : Bool) (plan : FailPlan),
      exec .l s = .next { s with
        env := { s.env with low := plan }
        pin := false
        pinHeld := !failed
        log := .low :: s.log }
      ∧ NextStatus s.env.low failed plan ∧ (s.env = .never → failed = false ∧ plan = s.env.low))
    ∧ (∀ s : State, s.seq = .unbound → exec .new s = exec .l { s with seq := .idle, log := .new :: s.log })
    ∧ ∀ d : DegTable, (symtab d .deg false).toList = [.w, .h, .l, .w, .w]
      ∧ symbolWave (symtab d .deg false) = [.p, .zero, .zero]

/-- R74, R56, R114: `F` always completes and changes nothing but the source, the trace and, where a
color came back, all of `col` at once: the source's next word read as `item[24:0]`, the end mark of a
used-up source, or the next color of a source that never ends. That a used-up source answers the end mark
at every fetch, a later transaction's too, is the model's own choice (assumption 8). -/
def Obligations.FetchResult : Prop :=
  (∀ (s : State) (w : ItemWord) (ws : List ItemWord), s.source.words = w :: ws →
    if 2 ^ 24 ≤ w.toNat then
      exec .f s = .next { s with
        source := { s.source with words := ws }
        log := .fetched none :: s.log }
    else
      ∃ c : Color, c.r.toNat = w.toNat / 2 ^ 16 ∧ c.g.toNat = w.toNat / 2 ^ 8 % 2 ^ 8
        ∧ c.b.toNat = w.toNat % 2 ^ 8
        ∧ exec .f s = .next { s with
          source := { s.source with words := ws }
          col := c
          log := .fetched (some c) :: s.log })
  ∧ (∀ s : State, s.source = ⟨[], .ends⟩ → exec .f s = .next { s with log := .fetched none :: s.log })
  ∧ ∀ (s : State) (n : Nat), s.source = ⟨[], .endless n⟩ →
    ∃ c : Color, exec .f s = .next { s with
      source := ⟨[], .endless (n + 1)⟩
      col := c
      log := .fetched (some c) :: s.log }

/-! ## The Bit Encoder -/

/-- R82, R83, R81, R57: the two symbols of the standard variant, in every state: schedule, schedule word,
waveform, three ticks, pin left low, nothing else changed. -/
def Obligations.StandardSymbolsResult : Prop :=
  (∀ s : State, ∃ t, exec .sym1Std s = .next t ∧ Performed [.w, .h, .w, .w, .l] s t
    ∧ t.pin = false ∧ t.tickno = s.tickno + 3)
  ∧ (∀ s : State, ∃ t, exec .sym0Std s = .next t ∧ Performed [.w, .h, .w, .l, .w] s t
    ∧ t.pin = false ∧ t.tickno = s.tickno + 3)
  ∧ decode (.symBit .std) 1 = .ok .sym1Std ∧ decode (.symBit .std) 0 = .ok .sym0Std
  ∧ encodeSchedule ⟨.w, .h, .w, .w, .l⟩ = 0x0C2#10 ∧ encodeSchedule ⟨.w, .h, .w, .l, .w⟩ = 0x0C8#10
  ∧ waveform [.w, .h, .w, .w, .l] false = [.one, .one, .zero]
  ∧ waveform [.w, .h, .w, .l, .w] false = [.one, .zero, .zero]

/-- R84, R85, R81, R90, D6: the two symbols of the degraded variant, in every state. The table is the
spec's own decision D6 (`zeroShifts`), with the recorded alternative (`bothShift`) beside it. -/
def Obligations.DegradedSymbolsResult : Prop :=
  (∀ s : State, s.cfg.degTable = .zeroShifts → ∃ t, exec .sym1Deg s = .next t
    ∧ Performed [.w, .h, .w, .w, .l] s t ∧ t.pin = false ∧ t.tickno = s.tickno + 3)
  ∧ (∀ s : State, s.cfg.degTable = .bothShift → ∃ t, exec .sym1Deg s = .next t
    ∧ Performed [.w, .h, .w, .l, .w] s t ∧ t.pin = false ∧ t.tickno = s.tickno + 3)
  ∧ (∀ s : State, ∃ t, exec .sym0Deg s = .next t
    ∧ Performed [.w, .h, .l, .w, .w] s t ∧ t.pin = false ∧ t.tickno = s.tickno + 3)
  ∧ decode (.symBit .deg) 1 = .ok .sym1Deg ∧ decode (.symBit .deg) 0 = .ok .sym0Deg
  ∧ encodeSchedule ⟨.w, .h, .l, .w, .w⟩ = 0x0E0#10
  ∧ waveform [.w, .h, .l, .w, .w] false = [.p, .zero, .zero]

/-- R86: `BYTE v` performs, from bit 7 down to bit 0, the schedule of each bit in the build's variant:
40 micro-operations, 24 `W`, 8 `H` and 8 `L`; 24 ticks; the pin is left low; nothing else changes. R52:
the waveform is that of the eight symbols, 24 characters. `BITS` is 8, as in the rules; the statement
OtherParametersResult has every build. -/
def Obligations.ByteResult : Prop :=
  ∀ (v : Byte) (s : State), s.cfg.bits = 8 → ∃ (us : List Uop) (t : State),
    us = [7, 6, 5, 4, 3, 2, 1, 0].flatMap (fun i : Nat =>
      (symtab s.cfg.degTable s.cfg.variant (decide (v.toNat / 2 ^ i % 2 = 1))).toList)
    ∧ exec (.byte v) s = .next t ∧ Performed us s t
    ∧ us.length = 40 ∧ us.count .w = 24 ∧ us.count .h = 8 ∧ us.count .l = 8
    ∧ t.pin = false ∧ t.tickno = s.tickno + 24
    ∧ waveform us false = [7, 6, 5, 4, 3, 2, 1, 0].flatMap (fun i : Nat =>
      symbolWave (symtab s.cfg.degTable s.cfg.variant (decide (v.toNat / 2 ^ i % 2 = 1))))
    ∧ (waveform us false).length = 24

/-- R103: `COLOR c` performs `BYTE c.g`, `BYTE c.r`, `BYTE c.b`: the three operations one after another
give the same state; 120 micro-operations, 72 of them `W`; the pin is left low; nothing else changes. Its
item word has red in the top byte. In a transaction the sequencer fetches again after it. `BITS` and
`CHANNEL_ORDER` are those of the rules; the statement OtherParametersResult has every build. -/
def Obligations.ColorResult : Prop :=
  ∀ (c : Color) (s : State), s.cfg.wireFormat → ∃ (us : List Uop) (t1 t2 t : State),
    exec (.byte c.g) s = .next t1 ∧ exec (.byte c.r) t1 = .next t2 ∧ exec (.byte c.b) t2 = .next t
    ∧ exec (.color c) s = .next t ∧ Performed us s t
    ∧ us = byteOps s.cfg c.g ++ byteOps s.cfg c.r ++ byteOps s.cfg c.b
    ∧ us.length = 120 ∧ us.count .w = 72
    ∧ t.pin = false ∧ t.tickno = s.tickno + 72
    ∧ waveform us false = waveform (byteOps s.cfg c.g) false ++ waveform (byteOps s.cfg c.r) false
      ++ waveform (byteOps s.cfg c.b) false
    ∧ decode .item (c.r.toNat * 2 ^ 16 + c.g.toNat * 2 ^ 8 + c.b.toNat) = .ok (.color c)
    ∧ (s.stim = [] → s.col = c → s.seq = .sym 0 7 0 →
      Host.Core.run Sys2Proof.core 120 s = .next { t with seq := .fetch })

/-- R87 (a) to (c), (e): every schedule of `SYMTAB`, default or configured, has three `W`, one `H`, one
`L`, begins `W H`, has its `H` before its `L`, and leaves the pin low whatever it was. -/
def Obligations.SymbolScheduleLaws : Prop :=
  ∀ (d : DegTable) (v : Variant) (b : Bool),
    (symtab d v b).toList.length = 5 ∧ (symtab d v b).toList.count .w = 3
    ∧ (symtab d v b).toList.count .h = 1 ∧ (symtab d v b).toList.count .l = 1
    ∧ (symtab d v b).u0 = .w ∧ (symtab d v b).u1 = .h
    ∧ (symtab d v b).toList.idxOf .h < (symtab d v b).toList.idxOf .l
    ∧ (∀ p, levelAfter (symtab d v b).toList p = false)
    ∧ (symtab d v b).wf = true

/-- R88: bit `i` of a channel value is `(v div 2^i) mod 2`; and bit 7 of a register shifted left `j`
times, whatever is shifted in, is `v[7 - j]`, so a shift register is equal in behaviour. -/
def Obligations.BitSelectionIsArithmetic : Prop :=
  (∀ (v : Byte) (i : Fin 8), bitAt v i = decide (v.toNat / 2 ^ i.val % 2 = 1))
    ∧ ∀ (v : Byte) (fill : Nat → Bool) (j : Fin 8),
      (shiftedLeft v fill j.val).getLsbD 7 = bitAt v j.rev

/-- R89: the high time of each symbol in ticks, and the low time from its `L` to the `H` of the symbol
that follows. -/
def Obligations.SymbolTimesInTicks : Prop :=
  (symtab .zeroShifts .std true).highTicks = 2 ∧ (symtab .zeroShifts .std false).highTicks = 1
    ∧ (symtab .zeroShifts .deg true).highTicks = 2 ∧ (symtab .zeroShifts .deg false).highTicks = 0
    ∧ ∀ (v : Variant) (b b' : Bool),
      ticksSinceLow (traceOf ((symtab .zeroShifts v b).toList ++ (symtab .zeroShifts v b').toList.take 2))
        = match v, b with
          | .std, true => 1
          | .std, false => 2
          | .deg, true => 1
          | .deg, false => 3

/-- R90, R59 (c): exactly two degraded tables meet the constraints; a pair of schedule words is accepted
exactly when it stands for one of them; the standard table is no parameter. -/
def Obligations.ExactlyTwoDegradedTables : Prop :=
  (∀ z o : Schedule, degAdmissible z o = true ↔
    z = ⟨.w, .h, .l, .w, .w⟩ ∧ (o = ⟨.w, .h, .w, .w, .l⟩ ∨ o = ⟨.w, .h, .w, .l, .w⟩))
  ∧ (∀ (d : DegTable) (b : Bool), symtab d .std b = symtab .zeroShifts .std b)
  ∧ ∀ (w0 w1 : ScheduleWord) (d : DegTable), degTableOf w0 w1 = some d ↔
    w0 = encodeSchedule (symtab d .deg false) ∧ w1 = encodeSchedule (symtab d .deg true)

/-- R51, R59 (f): the waveform of each symbol, and so the only patterns each variant sends. -/
def Obligations.SymbolWaveforms : Prop :=
  symbolWave (symtab .zeroShifts .std true) = [.one, .one, .zero]
    ∧ symbolWave (symtab .zeroShifts .std false) = [.one, .zero, .zero]
    ∧ symbolWave (symtab .zeroShifts .deg true) = [.one, .one, .zero]
    ∧ symbolWave (symtab .zeroShifts .deg false) = [.p, .zero, .zero]
    ∧ symbolWave (symtab .bothShift .deg true) = [.one, .zero, .zero]

/-! ## The Frame Driver -/

/-- R101: `NEW` in `UNBOUND` drives the pin low and enters `IDLE`, trace `new L`, no tick; nothing else
changes, and a failure of the pin drive is discarded. -/
def Obligations.ConstructionResult : Prop :=
  ∀ s : State, s.seq = .unbound → ∃ (failed : Bool) (plan : FailPlan),
    exec .new s = .next { s with
      env := { s.env with low := plan }
      seq := .idle
      pin := false
      pinHeld := !failed
      log := .low :: .new :: s.log }
    ∧ NextStatus s.env.low failed plan ∧ (s.env = .never → failed = false ∧ plan = s.env.low)

/-- R105: `GAP` performs `GAP_TICKS` waits and no pin write; of the rest of the block only `seq`, the
counter, is written. That it leaves `seq` in `IDLE`, in whatever state it is run alone, is the model's own
choice (assumption 9): R104 and R106 give `IDLE` after the gap of a transaction. -/
def Obligations.GapResult : Prop :=
  ∀ s : State, ∃ t, exec .gap s = .next t
    ∧ Performed (List.replicate s.cfg.gapTicks .w) s { t with seq := s.seq }
    ∧ t.seq = .idle ∧ t.pin = s.pin ∧ t.tickno = s.tickno + s.cfg.gapTicks

/-- R104: every item word with bit 24 set is `END`; it is the gap, then `done(Ok)`, then `IDLE`, and nothing
else; and the empty write is `start F(end)`, `GAP_TICKS` ticks, `done`: no `H`, no `L`, low throughout. -/
def Obligations.EndResult : Prop :=
  (∀ w, 2 ^ 24 ≤ w → w < 2 ^ 25 → decode .item w = .ok .endSeq)
  ∧ (∀ s : State, ∃ g, exec .gap s = .next g
    ∧ exec .endSeq s = .next { g with seq := .idle, log := .done .ok :: g.log })
  ∧ (∀ s : State, s.seq = .idle → s.env = .never → colorsOf s.source.tail s.source.words = some [] →
    ∃ t, exec .write s = .next t ∧ t.seq = .idle ∧ t.tickno = s.cfg.gapTicks ∧ t.pin = s.pin
      ∧ t.trace = s.trace ++ [.start, .fetched none] ++ List.replicate s.cfg.gapTicks (.tick false)
        ++ [.done .ok])
  ∧ (∀ cfg : Config, waveform (frameOps cfg []) false = List.replicate cfg.gapTicks .zero)
  ∧ Config.standard.gapTicks = 900

/-- R102, R107, R109: `WRITE` in `IDLE` on a source that yields `cs` and then its end mark. It completes;
the trace is the transaction's; `tickno` is `72 N + GAP_TICKS` in the wire format of this hardware; the
source stands after the end mark, its further words the next transaction's (the model's own choice,
assumption 8); `col` holds the last color sent; the pin is low, or as it was where nothing was sent. What
other values of `BITS` and `CHANNEL_ORDER` mean is the model's own choice (assumption 15). -/
def Obligations.WriteResult : Prop :=
  ∀ (s : State) (cs : List Color), s.seq = .idle → colorsOf s.source.tail s.source.words = some cs →
    ∃ (t : State) (es : List Event), exec .write s = .next t
      ∧ t.seq = .idle ∧ t.cfg = s.cfg ∧ t.stim = s.stim
      ∧ t.source = { s.source with words := wordsAfter s.source.words }
      ∧ t.col = cs.getLast?.getD s.col
      ∧ t.pin = (if cs = [] then s.pin else false)
      ∧ t.tickno = 3 * (s.cfg.bits * s.cfg.channels) * cs.length + s.cfg.gapTicks
      ∧ (s.cfg.wireFormat → t.tickno = 72 * cs.length + s.cfg.gapTicks) ∧ t.realTicks ≤ t.tickno
      ∧ t.trace = s.trace ++ es ∧ es.map unmark = frameTrace s.cfg cs
      ∧ (s.env = .never → t.env = .never ∧ es = frameTrace s.cfg cs ∧ t.realTicks = t.tickno
        ∧ t.pinHeld = (s.pinHeld || !cs.isEmpty))

/-- R109: the counts of a transaction with `N` colors, the same in both variants, and which ticks symbol
`k` occupies: `3k` waits stand before it and three in it; in the wire format of this hardware a color is
24 bits, 72 ticks and 120 micro-operations. What other values of `BITS` and `CHANNELS` mean is the model's
own choice (assumption 15). -/
def Obligations.TransactionCounts : Prop :=
  ∀ (cfg : Config) (cs : List Color),
    (frameTrace cfg cs).countP isTick = cfg.colorTicks * cs.length + cfg.gapTicks
    ∧ (frameTrace cfg cs).count .high = cfg.colorBitCount * cs.length
    ∧ (frameTrace cfg cs).count .low = cfg.colorBitCount * cs.length
    ∧ (frameTrace cfg cs).countP isFetch = cs.length + 1
    ∧ (frameOps cfg cs).length = cfg.symOps * cfg.colorBitCount * cs.length + cfg.gapTicks
    ∧ (∀ k, k ≤ cfg.colorBitCount * cs.length → ((frameOps cfg cs).take (5 * k)).count .w = 3 * k)
    ∧ (frameOps cfg cs).drop (5 * (cfg.colorBitCount * cs.length)) = List.replicate cfg.gapTicks .w
    ∧ (cfg.wireFormat → cfg.colorTicks = 72 ∧ cfg.colorBitCount = 24 ∧ cfg.symOps * cfg.colorBitCount = 120)
    ∧ Config.standard.wireFormat
    ∧ Config.standard.gapTicks = 900

/-- R108: running the step function from `IDLE`, from the `start` strobe on, with a source that yields
`cs` and then its end mark, ends in the very state that `WRITE` as one operation ends in, with the trace
R107 gives. What other values of `BITS` and `CHANNEL_ORDER` mean is the model's choice (assumption 15). -/
def Obligations.StepFunctionAgreesWithWrite : Prop :=
  ∀ (s : State) (cs : List Color), s.seq = .idle → s.stim = [.start] →
    colorsOf s.source.tail s.source.words = some cs →
    ∃ (t : State) (es : List Event), exec .write { s with stim := [] } = .next t
      ∧ Host.Core.run Sys2Proof.core
          ((s.cfg.symOps * s.cfg.colorBitCount + 1) * cs.length + s.cfg.gapTicks + 2) s = .next t
      ∧ t.seq = .idle ∧ t.trace = s.trace ++ es ∧ es.map unmark = frameTrace s.cfg cs

/-- R111: the trace of a transaction is a function of the build and of the sequence the source yields, and
of nothing else: not of the latch, the pin, the ticks or the history. -/
def Obligations.SameSequenceSameTrace : Prop :=
  ∀ (s s' : State) (cs : List Color), s.seq = .idle → s'.seq = .idle → s.cfg = s'.cfg →
    colorsOf s.source.tail s.source.words = some cs →
    colorsOf s'.source.tail s'.source.words = some cs →
    ∃ (t t' : State) (es es' : List Event),
      exec .write s = .next t ∧ exec .write s' = .next t'
      ∧ t.trace = s.trace ++ es ∧ t'.trace = s'.trace ++ es'
      ∧ es.map unmark = es'.map unmark ∧ t.tickno = t'.tickno
      ∧ (s.env = .never → s'.env = .never → es = es')

/-- R113: requests that have no step, as operations and as strobes at any moment. -/
def Obligations.RequestsWithoutStep : Prop :=
  (∀ s : State, s.seq ≠ .idle → exec .write s = .refused .startNotIdle)
    ∧ (∀ s : State, s.seq ≠ .unbound → exec .new s = .refused .newNotUnbound)
    ∧ (∀ (s : State) (rest : List Stimulus), s.stim = .start :: rest → s.seq ≠ .idle →
      step s = .refused .startNotIdle)
    ∧ (∀ (s : State) (rest : List Stimulus), s.stim = .new :: rest → s.seq ≠ .unbound →
      step s = .refused .newNotUnbound)
    ∧ ∀ (s : State) (k : Forbidden) (rest : List Stimulus), s.stim = .forbidden k :: rest →
      step s = .refused .noSuchRequest

/-- R110, with the alternative degraded table beside the default: how many whole ticks the pin has been
low at `done`, by the last bit sent, which is bit 0 of the last color's blue in the wire format of this
hardware; where nothing was sent there is no `L`, and the ticks are the gap's. -/
def Obligations.LowTimeAtDone : Prop :=
  ∀ (cfg : Config) (cs : List Color),
    (frameTrace cfg []).count .low = 0 ∧ ticksSinceLow (frameTrace cfg []) = cfg.gapTicks
    ∧ (∀ c : Color, cfg.wireFormat → (colorBits cfg c).getLast? = some (c.b.getLsbD 0))
    ∧ ∀ (c : Color) (bit : Bool), (colorBits cfg c).getLast? = some bit →
      ticksSinceLow (frameTrace cfg (cs ++ [c])) = cfg.gapTicks
        + (match bit, cfg.variant, cfg.degTable with
          | true, .std, _ => 0
          | true, .deg, .zeroShifts => 0
          | true, .deg, .bothShift => 1
          | false, .std, _ => 1
          | false, .deg, _ => 2)

/-- R62, spec/95_test_vectors.md section 7: the reference receiver gives back the sequence written, in
both variants, whatever waits failed; under the alternative degraded table it reads every bit as 0. It
groups the bits it reads into colors of 24, so colors come back in the wire format of this hardware; that
the bits come back in every build rests on the model's choice of what other parameters mean
(assumption 15). -/
def Obligations.ReceiverReadsBackTheSequence : Prop :=
  ∀ (cfg : Config) (cs : List Color) (es : List Event), es.map unmark = frameTrace cfg cs →
    (cfg.variant = .std ∨ cfg.degTable = .zeroShifts → receiveBits es = cs.flatMap (colorBits cfg)
      ∧ (cfg.wireFormat → receive es = cs))
    ∧ (cfg.variant = .deg ∧ cfg.degTable = .bothShift → receiveBits es = List.replicate
        (cfg.colorBitCount * cs.length) false
      ∧ (cfg.wireFormat → receive es = cs.map fun _ => ⟨0, 0, 0⟩))

/-- R61, R107, R108, R115, and S9 of spec/95_test_vectors.md: a script that constructs the block and writes
sequences one after another runs to its end, in both variants: the trace is `new L` and the transactions
one after another, the block is idle with its pin low, and the reference receiver reads back all the
colors written. -/
def Obligations.ScriptOfWritesRuns : Prop :=
  ∀ (v : Variant) (css : List (List Color)), ∃ (k : Nat) (t : State),
    Host.Core.run Sys2Proof.core k (Script.load ⟨v, .new :: css.map .write⟩) = .next t
    ∧ t.stim = [] ∧ t.seq = .idle ∧ t.pin = false ∧ t.source.words = []
    ∧ t.trace = [.new, .low]
        ++ css.flatMap (frameTrace (Script.config ⟨v, .new :: css.map .write⟩))
    ∧ receive t.trace = css.flatten

/-- R52 to R54, R107: the waveform of a transaction is, color by color and bit by bit in wire order, the
three characters of each symbol, then `GAP_TICKS` characters low, 900 in the build this hardware takes:
`72 N + GAP_TICKS` characters. `BITS` and `CHANNEL_ORDER` are those of the rules. -/
def Obligations.FrameWaveform : Prop :=
  (∀ (cfg : Config) (cs : List Color), cfg.wireFormat →
    opsOf (frameTrace cfg cs) = frameOps cfg cs
    ∧ waveform (opsOf (frameTrace cfg cs)) false
      = cs.flatMap (fun c => [c.g, c.r, c.b].flatMap fun v =>
          (byteBits cfg v).flatMap fun b => symbolWave (scheduleOf cfg b))
        ++ List.replicate cfg.gapTicks .zero
    ∧ (waveform (opsOf (frameTrace cfg cs)) false).length = 72 * cs.length + cfg.gapTicks)
  ∧ Config.standard.wireFormat ∧ Config.standard.gapTicks = 900

/-- R34, R31, R32: wire bit `j` of a color is bit `23 - j` of `W24(c)`, and it is bit `7 - (j mod 8)` of
channel `j div 8` in the order green, red, blue; these are the bits `COLOR` sends, in this order. `BITS`
and `CHANNEL_ORDER` are those of the rules. -/
def Obligations.WireBitOrder : Prop :=
  Config.standard.wireFormat ∧ ∀ (cfg : Config) (c : Color) (j : Nat), cfg.wireFormat → j < 24 →
    colorOps cfg c = (colorBits cfg c).flatMap (fun b => (scheduleOf cfg b).toList)
    ∧ (colorBits cfg c)[j]? = some ((w24 c).getLsbD (23 - j))
    ∧ (w24 c).getLsbD (23 - j) = ([c.g, c.r, c.b].getD (j / 8) 0).getLsbD (7 - j % 8)

/-! ## The sequencer and the step -/

/-- R106: the action of each state of `seq` and where `seq` goes: in `SYM(ch, i, u)` the micro-operation
the schedule of the selected bit names, run as that operation; in `FETCH` the operation `F`; in
`GAP(n)` the operation `W`, with `done(Ok)` after the last. A `SYM` beyond the build's channels or bits is
no sequencer state and is refused (the model's own choice, assumption 15); the wire format of this
hardware has none. -/
def Obligations.SequencerRunsTheSelectedOperation : Prop :=
  (∀ (s : State) (ch : Fin 3) (i : Fin 8) (u : Fin 5) (bit : Bool), s.stim = [] → s.seq = .sym ch i u →
    symBit s.cfg s.col ch i = some bit →
    ∃ t, exec ((scheduleOf s.cfg bit).op u).instr s = .next t
      ∧ step s = .next { t with
        seq :=
          if h : u.val < 4 then .sym ch i ⟨u.val + 1, by omega⟩
          else if h' : 0 < i.val then .sym ch ⟨i.val - 1, by omega⟩ 0
          else if h'' : ch.val < 2 ∧ ch.val + 1 < s.cfg.channels then
            channelStart s.cfg ⟨ch.val + 1, by omega⟩
          else .fetch })
  ∧ (∀ (s : State) (ch : Fin 3) (i : Fin 8) (u : Fin 5), s.stim = [] → s.seq = .sym ch i u →
    symBit s.cfg s.col ch i = none → step s = .refused .seqOutOfRange)
  ∧ (∀ (cfg : Config) (c : Color) (ch : Fin 3) (i : Fin 8), cfg.wireFormat →
    symBit cfg c ch i = some ((match ch with | 0 => c.g | 1 => c.r | 2 => c.b).getLsbD i.val)
    ∧ channelStart cfg ch = .sym ch 7 0)
  ∧ (∀ s : State, s.stim = [] → s.seq = .fetch →
    ∃ (t : State) (a : Option Color), exec .f s = .next t ∧ t.log = .fetched a :: s.log
      ∧ step s = .next { t with
        seq := if a.isSome then channelStart s.cfg 0 else .gap s.cfg.gapTicks })
  ∧ (∀ (s : State) (n : Nat), s.stim = [] → s.seq = .gap (n + 2) →
    ∃ t, exec .w s = .next t ∧ step s = .next { t with seq := .gap (n + 1) })
  ∧ ∀ s : State, s.stim = [] → s.seq = .gap 1 →
    ∃ t, exec .w s = .next t ∧ step s = .next { t with seq := .idle, log := .done .ok :: t.log }

/-- An operation presented alone is decoded at its place and runs as that operation, its word consumed and
nothing added; a word that selects nothing is refused (R57, R59); a strobe runs `NEW`, or the first action
of `WRITE` (R58). R61 runs `byte` and `sym` alone, and R58 gives the host no request for an operation below
`WRITE`: that a test bench may present any operation alone, and that it runs whole in every state of `seq`,
`UNBOUND` and the middle of a transaction among them, is the model's own choice (assumption 9), as is that
each step takes one such stimulus (assumption 10). -/
def Obligations.StepRunsTheDecodedOperation : Prop :=
  (∀ (s : State) (p : Place) (w : Nat) (rest : List Stimulus) (i : Instr), s.stim = .alone p w :: rest →
    i.wf = true → decode p w = .ok i → step s = exec i { s with stim := rest })
  ∧ (∀ (s : State) (p : Place) (w : Nat) (rest : List Stimulus) (r : Reject),
    s.stim = .alone p w :: rest → decode p w = .error r → step s = .refused (.wordSelectsNothing r))
  ∧ (∀ (s : State) (rest : List Stimulus), s.stim = .new :: rest →
    step s = exec .new { s with stim := rest })
  ∧ ∀ (s : State) (rest : List Stimulus), s.stim = .start :: rest → s.seq = .idle →
    step s = .next { s with
      stim := rest
      seq := .fetch
      tickno := 0
      realTicks := 0
      log := .start :: s.log }

/-- A word of the operation table, placed for the next step, runs as the operation it decodes to. At which
place a word is read by its width alone, that placing it presents the operation alone, and that it so runs
in every state of `seq`, is the model's own choice (assumptions 7, 9 and 11). -/
def Obligations.TableWordRunsNext : Prop :=
  ∀ (s : State) (nbits w : Nat) (i : Instr), decodeTableWord nbits (w % 2 ^ nbits) = some i →
    step (s.withFetchWord nbits w) = exec i s

/-- R106, R115: in `UNBOUND` and `IDLE` the block does nothing until the host acts. -/
def Obligations.NothingHappensWithoutTheHost : Prop :=
  ∀ s : State, s.seq = .unbound ∨ s.seq = .idle →
    (s.stim = [] → step s = .next s)
    ∧ ∀ rest, s.stim = .pass :: rest ∨ s.stim = .awaitDone :: rest → step s = .next { s with stim := rest }

/-- R114: a source that never ends keeps the transaction running for ever: after any number of steps from
the `start` strobe the block is busy and no `done` has come. `WRITE` as one operation leaves such a
transaction begun, as the `start` strobe does (the model's own choice, assumption 6). -/
def Obligations.EndlessSourceIsNeverDone : Prop :=
  (∀ s : State, s.seq = .idle → s.stim = [.start] → colorsOf s.source.tail s.source.words = none →
    ∀ k, ∃ t, Host.Core.run Sys2Proof.core (k + 1) s = .next t ∧ busy t = true
      ∧ t.trace.count (.done .ok) = s.trace.count (.done .ok))
  ∧ ∀ s : State, s.seq = .idle → colorsOf s.source.tail s.source.words = none →
    exec .write s = .next { s with seq := .fetch, tickno := 0, realTicks := 0, log := .start :: s.log }

/-- R16, R112: under a host at the ports a step adds one `done(Ok)` exactly in `GAP(1)`, `busy` falls
exactly there, and it rises exactly at the `start` strobe. -/
def Obligations.DoneAndBusyTogether : Prop :=
  ∀ s t : State, hostOnly s = true → step s = .next t →
    t.trace.count (.done .ok) = s.trace.count (.done .ok) + (if s.seq = .gap 1 then 1 else 0)
    ∧ (busy s = true ∧ busy t = false ↔ s.seq = .gap 1)
    ∧ (busy s = false ∧ busy t = true ↔ ∃ rest, s.stim = .start :: rest)

/-- R42: under a host at the ports an item is fetched at a step exactly when the sequencer is in `FETCH`,
and one only. -/
def Obligations.FetchOnlyInFetchState : Prop :=
  ∀ s t : State, hostOnly s = true → step s = .next t →
    t.trace.countP isFetch = s.trace.countP isFetch + (if s.seq = .fetch then 1 else 0)

/-- R122 to R124: whatever failures the capabilities report, the block does the same: two states that
differ in nothing but faults step to states that differ in nothing but faults, or are refused alike. -/
def Obligations.FailuresAreDiscarded : Prop :=
  ∀ s t : State, SameButFaults s t → sameOutcome (step s) (step t)

/-- R15: no step and no operation changes the build-time configuration. -/
def Obligations.ConfigurationNeverChanges : Prop :=
  (∀ s t : State, step s = .next t → t.cfg = s.cfg)
    ∧ ∀ (i : Instr) (s t : State), exec i s = .next t → t.cfg = s.cfg

/-- R13: of the operations only `F`, and `WRITE` that performs it, write the color latch; and under a host
at the ports the sequencer writes it in `FETCH` only. -/
def Obligations.LatchWrittenByFetchOnly : Prop :=
  (∀ (i : Instr) (s t : State), i ≠ .f → i ≠ .write → exec i s = .next t → t.col = s.col)
    ∧ ∀ s t : State, hostOnly s = true → step s = .next t → s.seq ≠ .fetch → t.col = s.col

/-- R11, R39: under a host at the ports the pin changes at a step only by an `H` or an `L`, which the trace
shows last. -/
def Obligations.PinChangesByPinEventsOnly : Prop :=
  ∀ s t : State, hostOnly s = true → step s = .next t → t.pin ≠ s.pin →
    (t.pin = true ∧ t.log = .high :: s.log)
    ∨ (t.pin = false ∧ (t.log = .low :: s.log ∨ t.log = .low :: .new :: s.log))

/-- R17: the trace only grows: what has happened stays as it was. -/
def Obligations.TraceOnlyGrows : Prop :=
  ∀ s t : State, step s = .next t → s.trace <+: t.trace

/-! ## Invariants -/

/-- R21, R87, R12: every step under a host at the ports keeps the pin at its boundary level, the gap counter
in its range, and every `H` matched by an `L`. -/
def Obligations.StepKeepsPinInvariant : Prop := ∀ s t : State, Inv s → step s = .next t → Inv t

/-- The pin invariant holds right after reset and before construction. -/
def Obligations.PinInvariantAtReset : Prop := Inv State.reset ∧ Inv State.unbound

/-- R17, U4: every step, a test bench's among them, keeps `tickno` the number of ticks since the last
`start` and the real ticks no more than that. -/
def Obligations.StepKeepsCountInvariant : Prop := ∀ s t : State, CountInv s → step s = .next t → CountInv t

/-- The count invariant holds right after reset and before construction. -/
def Obligations.CountInvariantAtReset : Prop := CountInv State.reset ∧ CountInv State.unbound

/-- R123, R124: in the default environment, under a host at the ports, every step keeps the wire carrying
what the block last drove and the real ticks one to one with the waits. -/
def Obligations.StepKeepsFaultlessInvariant : Prop :=
  ∀ s t : State, FaultlessInv s → step s = .next t → FaultlessInv t

/-- The faultless invariant holds right after reset and before construction; where it holds and the block
drives, the wire is `pin`, and no wait fails. -/
def Obligations.FaultlessInvariantAtReset : Prop :=
  FaultlessInv State.reset ∧ FaultlessInv State.unbound
    ∧ ∀ s : State, FaultlessInv s → (s.seq ≠ .unbound → level s = s.pin) ∧ timerSound s = true

/-! ## Reset, build, outputs, time -/

/-- R22, R141: reset is construction. `NEW` takes the block before construction to the reset state: `IDLE`,
pin 0, not busy, `tickno` 0, the build's configuration unchanged. The value of `col` there is the
model's choice (assumption 1) and is not stated. -/
def Obligations.ResetIsConstruction : Prop :=
  exec .new State.unbound = .next State.reset
    ∧ State.unbound.seq = .unbound ∧ busy State.unbound = false ∧ State.unbound.tickno = 0
    ∧ State.reset.seq = .idle ∧ State.reset.pin = false ∧ level State.reset = false
    ∧ busy State.reset = false ∧ State.reset.tickno = 0
    ∧ State.reset.cfg = State.unbound.cfg ∧ State.reset.cfg.variant = .std
    ∧ State.reset.cfg.gapTicks = 900

/-- R5, R90, R125, R59 (c), U6: a block is built exactly from a table within the constraints, a gap of at
least one tick, no strict mode and the other parameters in their ranges (which are the model's,
assumption 15); it then stands before construction with that configuration. -/
def Obligations.BuildRefusesBadConfigurations : Prop :=
  (∀ o : BuildOptions, (∃ s, build o = .next s) ↔
    (o.strictFaults = false ∧ 0 < o.gapTicks ∧ o.inRange ∧ ∃ d, degTableOf o.deg0 o.deg1 = some d))
  ∧ ∀ (o : BuildOptions) (s : State), build o = .next s →
    s.seq = .unbound ∧ s.cfg.variant = o.variant ∧ s.cfg.gapTicks = o.gapTicks
    ∧ s.cfg.symTicks = o.symTicks ∧ s.cfg.bits = o.bits ∧ s.cfg.channels = o.channels
    ∧ s.cfg.channelOrder = o.channelOrder ∧ s.cfg.tickHz = o.tickHz
    ∧ s.cfg.toggleLatency = o.toggleLatency
    ∧ degTableOf o.deg0 o.deg1 = some s.cfg.degTable

/-- R16, R56: `busy` is 1 exactly in `FETCH`, `SYM(..)` and `GAP(..)`, `err` is 0 in every state, and the
strobes `fetch` and `done` are 1 exactly in `FETCH` and in `GAP(1)`, whose actions they mark. -/
def Obligations.StatusOutputs : Prop :=
  ∀ s : State, (outputs s).err = false
    ∧ ((outputs s).busy = true ↔ s.seq ≠ .unbound ∧ s.seq ≠ .idle)
    ∧ ((outputs s).fetch = true ↔ s.seq = .fetch)
    ∧ ((outputs s).done = true ↔ s.seq = .gap 1)

/-- R154: nominal durations in nanoseconds of a symbol, a byte, a color, the gap and a frame of `N` colors,
interval 0 included, which is more than 0 and at most one tick, in the build this hardware takes; of the
frame only where no wait of the run fails (R123, D8). -/
def Obligations.NominalDurations : Prop :=
  let c := Config.standard
  nominalNs c c.symTicks = 1000 ∧ nominalNs c (c.symTicks * c.bits) = 8000
    ∧ nominalNs c c.colorTicks = 24000 ∧ nominalNs c c.gapTicks = 300000
    ∧ ∀ (s : State) (n : Nat), s.cfg = c → timerSound s = true →
      frameNs s n = 24000 * n + 300000 + interval0 (begin s) * tickPeriodNs c
      ∧ 0 < interval0 (begin s) * tickPeriodNs c ∧ interval0 (begin s) * tickPeriodNs c ≤ tickPeriodNs c

/-- R19, R71: where no wait of the run fails (R123, D8), a wait blocks for more than nothing and at most one
tick, and every wait of a transaction after its first for exactly one tick. -/
def Obligations.WaitingTimes : Prop :=
  ∀ s : State, timerSound s = true →
    0 < waitNs s ∧ waitNs s ≤ tickPeriodNs s.cfg
    ∧ (busy s = true → 0 < s.tickno → waitNs s = tickPeriodNs s.cfg)
    ∧ (s.cfg = Config.standard → tickPeriodNs s.cfg * 3 = 1000)

/-- R154, R156, of a symbol in which no wait and no pin drive fails (R123, R124; assumptions 4 and 12):
its high time on the wire is its ticks and the difference of the toggle latencies, exactly its ticks
where rising and falling edges are equally late, for every symbol of both degraded tables that has a
tick in it; that of the degraded 0 symbol is the platform's. A latency is the build's own figure where
the build gives one. That there is one figure for each kind of edge, and that each is above 0, the width
of the degraded 0 pulse included, is the model's own choice (assumption 12; D15 and N5 leave that width
open). -/
def Obligations.PulseWidths : Prop :=
  (∀ (cfg : Config) (e : Edge), 0 < latencyNs cfg e)
    ∧ (∀ (cfg : Config) (t : ToggleLatency), cfg.toggleLatency = some t → latencyNs cfg .rise = t.rise
      ∧ latencyNs cfg .fall = t.fall ∧ latencyNs cfg .pulse = t.pulse)
    ∧ (∀ (cfg : Config) (d : DegTable), highTimeNs cfg (symtab d .deg false) = latencyNs cfg .pulse)
    ∧ ∀ (cfg : Config) (d : DegTable) (v : Variant) (b : Bool) (ticks : Nat), ¬ (v = .deg ∧ b = false) →
      ticks = (match b, v, d with
        | true, .std, _ => 2
        | true, .deg, .zeroShifts => 2
        | true, .deg, .bothShift => 1
        | false, _, _ => 1) →
      highTimeNs cfg (symtab d v b) = ticks * tickPeriodNs cfg + latencyNs cfg .fall - latencyNs cfg .rise
      ∧ (latencyNs cfg .fall = latencyNs cfg .rise →
        highTimeNs cfg (symtab d v b) = ticks * tickPeriodNs cfg)

/-! ## Every build, every state of the invariant -/

/-- R5: the block in every build. `BYTE v` performs the schedules of bits `BITS - 1` down to 0, `COLOR c`
those of the channels `CHANNEL_ORDER` names; both complete, leave the pin low and change nothing else, and
the sequencer takes the steps of the color and fetches again. That other values of these parameters mean
this is the model's own choice (assumption 15). -/
def Obligations.OtherParametersResult : Prop :=
  (∀ (v : Byte) (s : State), ∃ (us : List Uop) (t : State),
    us = (List.range s.cfg.bits).reverse.flatMap (fun i : Nat =>
      (symtab s.cfg.degTable s.cfg.variant (decide (v.toNat / 2 ^ i % 2 = 1))).toList)
    ∧ exec (.byte v) s = .next t ∧ Performed us s t ∧ us.count .w = s.cfg.symTicks * s.cfg.bits
    ∧ us.length = s.cfg.symOps * s.cfg.bits ∧ t.pin = false)
  ∧ ∀ (c : Color) (s : State), ∃ (us : List Uop) (t : State),
    us = s.cfg.channelOrder.flatMap (fun k => byteOps s.cfg (c.channel k))
    ∧ exec (.color c) s = .next t ∧ Performed us s t ∧ us.count .w = s.cfg.colorTicks
    ∧ us.length = s.cfg.symOps * s.cfg.colorBitCount ∧ t.pin = false
    ∧ (s.stim = [] → s.col = c → s.seq = channelStart s.cfg 0 →
      Host.Core.run Sys2Proof.core (s.cfg.symOps * s.cfg.colorBitCount) s = .next { t with seq := .fetch })

/-- R106: in each state of `seq` an action is enabled. Where the pin invariant holds and the host gives no
strobe, a step answers a next state; so the refusal of a state outside R12 is met by no run. -/
def Obligations.InvariantStateAlwaysSteps : Prop :=
  ∀ s : State, Inv s → s.stim = [] ∨ (∃ rest, s.stim = .pass :: rest) ∨ (∃ rest, s.stim = .awaitDone :: rest) →
    ∃ t, step s = .next t

/-- R7, R154, R155: interval 0 of a frame is its own first wait. From `IDLE` the `start` strobe and the first
fetch lead to the state in which the first wait of the transaction is called, none having been performed;
it blocks for interval 0, from `start` to tick 1, and the frame lasts that long and its ticks more. Where no
wait of the run fails (R123, D8); that the frame's ticks are counted to the end of the interval after the last
is the model's reading (assumption 18). -/
def Obligations.FrameBeginsWithItsFirstWait : Prop :=
  ∀ s : State, s.seq = .idle → s.stim = [.start] → timerSound s = true →
    ∃ t : State, Host.Core.run Sys2Proof.core 2 s = .next t ∧ busy t = true ∧ t.tickno = 0
      ∧ (t.seq = channelStart s.cfg 0 ∨ t.seq = .gap s.cfg.gapTicks)
      ∧ waitNs t = interval0 (begin s) * tickPeriodNs s.cfg
      ∧ ∀ n : Nat, frameNs s n = waitNs t + nominalNs s.cfg (s.cfg.colorTicks * n + s.cfg.gapTicks)
end

