-- ==== Sys2Proof/Laws/Decode.lean ====
section
/-! SUPPORT. The item word and its fields as numbers, and the codes of the micro-operations. -/

namespace Sys2Proof

/-- Red, green and blue from the top byte down (R56). -/
theorem colorWord_toNat (c : Color) :
    (colorWord c).toNat = c.r.toNat * 2 ^ 16 + c.g.toNat * 2 ^ 8 + c.b.toNat := by
  have hg := c.g.isLt
  have hb := c.b.isLt
  have h : (colorWord c).toNat
      = (c.r.toNat <<< 8 ||| c.g.toNat) <<< 8 ||| c.b.toNat := by
    show (0#1 ++ c.r ++ c.g ++ c.b : BitVec (1 + 8 + 8 + 8)).toNat = _
    rw [BitVec.toNat_append, BitVec.toNat_append, BitVec.toNat_append]
    simp
  rw [h, ← Nat.shiftLeft_add_eq_or_of_lt hg, ← Nat.shiftLeft_add_eq_or_of_lt hb,
    Nat.shiftLeft_eq, Nat.shiftLeft_eq]
  omega

/-- Bit 24 of an item word says whether its value reaches `2 ^ 24`. -/
theorem item_bit24 (w : ItemWord) : w.getLsbD 24 = decide (2 ^ 24 ≤ w.toNat) := by
  have := w.isLt
  rw [BitVec.getLsbD, Nat.testBit_eq_decide_div_mod_eq]
  congr 1
  simp only [eq_iff_iff]
  omega

/-- An item word read: the end mark from `2 ^ 24` up, else three bytes (R56). -/
theorem decodeItem_eq (w : ItemWord) : decodeItem w =
    if 2 ^ 24 ≤ w.toNat then none
    else some ⟨BitVec.ofNat 8 (w.toNat / 2 ^ 16), BitVec.ofNat 8 (w.toNat / 2 ^ 8),
      BitVec.ofNat 8 w.toNat⟩ := by
  unfold decodeItem
  rw [item_bit24]
  simp only [decide_eq_true_eq]
  split
  · rfl
  · simp only [BitVec.extractLsb', Nat.shiftRight_eq_div_pow, pow_zero, Nat.div_one]

@[simp] theorem decodeItem_endWord : decodeItem endWord = none := by decide

@[simp] theorem decodeItem_colorWord (c : Color) : decodeItem (colorWord c) = some c := by
  have hr := c.r.isLt
  have hg := c.g.isLt
  have hb := c.b.isLt
  rw [decodeItem_eq, colorWord_toNat, if_neg (by omega)]
  obtain ⟨r, g, b⟩ := c
  simp only [Option.some.injEq, Color.mk.injEq]
  refine ⟨?_, ?_, ?_⟩ <;> apply BitVec.eq_of_toNat_eq <;> simp only [BitVec.toNat_ofNat] <;> omega

/-- The word of the color an item word decodes to is that word. -/
theorem colorWord_of_decodeItem (w : ItemWord) (c : Color) (h : decodeItem w = some c) :
    colorWord c = w := by
  rw [decodeItem_eq] at h
  split at h
  · cases h
  · cases h
    apply BitVec.eq_of_toNat_eq
    rw [colorWord_toNat]
    simp only [BitVec.toNat_ofNat]
    omega

@[simp] theorem decodeUop_encodeUop (u : Uop) : decodeUop (encodeUop u) = some u := by
  cases u <;> rfl

/-- The code of the micro-operation a code decodes to is that code. -/
theorem encodeUop_of_decodeUop (c : BitVec 2) (u : Uop) (h : decodeUop c = some u) :
    encodeUop u = c := by
  unfold decodeUop at h
  split at h
  · next e => cases h; exact e.symm
  · split at h
    · next e => cases h; exact e.symm
    · split at h
      · next e => cases h; exact e.symm
      · cases h

end Sys2Proof
end

