-- ==== Sys2Proof/Laws/State.lean ====
section
/-! SUPPORT. One lemma per field per update of the state, true by rfl, and the trace after an event. -/

namespace Sys2Proof.Machine

@[simp] theorem emit_cfg (e : Event) (s : State) : (emit e s).cfg = s.cfg := rfl
@[simp] theorem emit_seq (e : Event) (s : State) : (emit e s).seq = s.seq := rfl
@[simp] theorem emit_pin (e : Event) (s : State) : (emit e s).pin = s.pin := rfl
@[simp] theorem emit_pinHeld (e : Event) (s : State) : (emit e s).pinHeld = s.pinHeld := rfl
@[simp] theorem emit_col (e : Event) (s : State) : (emit e s).col = s.col := rfl
@[simp] theorem emit_log (e : Event) (s : State) : (emit e s).log = e :: s.log := rfl
@[simp] theorem emit_tickno (e : Event) (s : State) : (emit e s).tickno = s.tickno := rfl
@[simp] theorem emit_realTicks (e : Event) (s : State) : (emit e s).realTicks = s.realTicks := rfl
@[simp] theorem emit_env (e : Event) (s : State) : (emit e s).env = s.env := rfl
@[simp] theorem emit_source (e : Event) (s : State) : (emit e s).source = s.source := rfl
@[simp] theorem emit_stim (e : Event) (s : State) : (emit e s).stim = s.stim := rfl

@[simp] theorem opW_cfg (s : State) : (opW s).cfg = s.cfg := rfl
@[simp] theorem opW_seq (s : State) : (opW s).seq = s.seq := rfl
@[simp] theorem opW_pin (s : State) : (opW s).pin = s.pin := rfl
@[simp] theorem opW_pinHeld (s : State) : (opW s).pinHeld = s.pinHeld := rfl
@[simp] theorem opW_col (s : State) : (opW s).col = s.col := rfl
@[simp] theorem opW_log (s : State) : (opW s).log = .tick (s.env.wait.pop).1 :: s.log := rfl
@[simp] theorem opW_tickno (s : State) : (opW s).tickno = s.tickno + 1 := rfl
@[simp] theorem opW_env (s : State) : (opW s).env = { s.env with wait := (s.env.wait.pop).2 } := rfl
@[simp] theorem opW_source (s : State) : (opW s).source = s.source := rfl
@[simp] theorem opW_stim (s : State) : (opW s).stim = s.stim := rfl

@[simp] theorem opH_cfg (s : State) : (opH s).cfg = s.cfg := rfl
@[simp] theorem opH_seq (s : State) : (opH s).seq = s.seq := rfl
@[simp] theorem opH_pin (s : State) : (opH s).pin = true := rfl
@[simp] theorem opH_pinHeld (s : State) : (opH s).pinHeld = (!(s.env.high.pop).1) := rfl
@[simp] theorem opH_col (s : State) : (opH s).col = s.col := rfl
@[simp] theorem opH_log (s : State) : (opH s).log = .high :: s.log := rfl
@[simp] theorem opH_tickno (s : State) : (opH s).tickno = s.tickno := rfl
@[simp] theorem opH_realTicks (s : State) : (opH s).realTicks = s.realTicks := rfl
@[simp] theorem opH_env (s : State) : (opH s).env = { s.env with high := (s.env.high.pop).2 } := rfl
@[simp] theorem opH_source (s : State) : (opH s).source = s.source := rfl
@[simp] theorem opH_stim (s : State) : (opH s).stim = s.stim := rfl

@[simp] theorem opL_cfg (s : State) : (opL s).cfg = s.cfg := rfl
@[simp] theorem opL_seq (s : State) : (opL s).seq = s.seq := rfl
@[simp] theorem opL_pin (s : State) : (opL s).pin = false := rfl
@[simp] theorem opL_pinHeld (s : State) : (opL s).pinHeld = (!(s.env.low.pop).1) := rfl
@[simp] theorem opL_col (s : State) : (opL s).col = s.col := rfl
@[simp] theorem opL_log (s : State) : (opL s).log = .low :: s.log := rfl
@[simp] theorem opL_tickno (s : State) : (opL s).tickno = s.tickno := rfl
@[simp] theorem opL_realTicks (s : State) : (opL s).realTicks = s.realTicks := rfl
@[simp] theorem opL_env (s : State) : (opL s).env = { s.env with low := (s.env.low.pop).2 } := rfl
@[simp] theorem opL_source (s : State) : (opL s).source = s.source := rfl
@[simp] theorem opL_stim (s : State) : (opL s).stim = s.stim := rfl

@[simp] theorem begin_cfg (s : State) : (begin s).cfg = s.cfg := rfl
@[simp] theorem begin_seq (s : State) : (begin s).seq = .fetch := rfl
@[simp] theorem begin_pin (s : State) : (begin s).pin = s.pin := rfl
@[simp] theorem begin_pinHeld (s : State) : (begin s).pinHeld = s.pinHeld := rfl
@[simp] theorem begin_col (s : State) : (begin s).col = s.col := rfl
@[simp] theorem begin_log (s : State) : (begin s).log = .start :: s.log := rfl
@[simp] theorem begin_tickno (s : State) : (begin s).tickno = 0 := rfl
@[simp] theorem begin_realTicks (s : State) : (begin s).realTicks = 0 := rfl
@[simp] theorem begin_env (s : State) : (begin s).env = s.env := rfl
@[simp] theorem begin_source (s : State) : (begin s).source = s.source := rfl
@[simp] theorem begin_stim (s : State) : (begin s).stim = s.stim := rfl

/-- The real ticks of a wait: one, or the free value where it failed. -/
theorem opW_realTicks (s : State) : (opW s).realTicks = s.realTicks
    + (if (s.env.wait.pop).1 then (if Config.failedWaitTookTick s.log then 1 else 0) else 1) := rfl

/-- The log read in the order the events happened. -/
theorem trace_eq (s : State) : s.trace = s.log.reverse := rfl

@[simp] theorem trace_emit (e : Event) (s : State) : (emit e s).trace = s.trace ++ [e] := by
  simp [trace_eq]

/-- Two states with the same log have the same trace. -/
theorem trace_of_log_cons (s t : State) (e : Event) (h : t.log = e :: s.log) :
    t.trace = s.trace ++ [e] := by
  simp [trace_eq, h]

end Sys2Proof.Machine
end

