-- ==== Sys2Proof/Laws/Ops.lean ====
section
/-! SUPPORT. What each shared operation can do, said once: a plan's next status, a micro-operation, a list
of them (`Performed`), the fetch, and the pieces of a transaction as lists of micro-operations. -/

namespace Sys2Proof.Machine

open Sys2Proof.Safety

@[simp] theorem pop_never : FailPlan.pop ⟨[], false⟩ = (false, ⟨[], false⟩) := rfl

/-- A micro-operation does what the one-element list says. -/
theorem doUop_performed (u : Uop) (s : State) : Performed [u] s (doUop u s) := by
  cases u
  · refine ⟨rfl, rfl, rfl, rfl, rfl, rfl, rfl, ?_, ⟨[.tick (s.env.wait.pop).1], ?_, rfl⟩, ?_⟩
    · simp only [doUop, opW_realTicks, List.count_singleton_self]
      split <;> [split; skip] <;> omega
    · simp [doUop, trace_eq]
    · intro h
      simp [doUop, opW, h, FaultEnv.never, levelAfter, traceOf, eventOf]
  · refine ⟨rfl, rfl, rfl, rfl, rfl, rfl, rfl, ⟨le_refl _, le_refl _⟩, ⟨[.high], ?_, rfl⟩, ?_⟩
    · simp [doUop, trace_eq]
    · intro h
      simp [doUop, opH, h, FaultEnv.never, levelAfter, traceOf, eventOf]
  · refine ⟨rfl, rfl, rfl, rfl, rfl, rfl, rfl, ⟨le_refl _, le_refl _⟩, ⟨[.low], ?_, rfl⟩, ?_⟩
    · simp [doUop, trace_eq]
    · intro h
      simp [doUop, opL, h, FaultEnv.never, levelAfter, traceOf, eventOf]

theorem levelAfter_append (us vs : List Uop) (p : Bool) :
    levelAfter (us ++ vs) p = levelAfter vs (levelAfter us p) := by
  induction us generalizing p with
  | nil => rfl
  | cons u us ih => cases u <;> simp [levelAfter, ih]

@[simp] theorem traceOf_append (us vs : List Uop) : traceOf (us ++ vs) = traceOf us ++ traceOf vs := by
  simp [traceOf]

/-- One list performed after another is the two lists joined. -/
theorem performed_append {us vs : List Uop} {s t r : State} (h : Performed us s t)
    (k : Performed vs t r) : Performed (us ++ vs) s r := by
  obtain ⟨es, he, hm⟩ := h.trace
  obtain ⟨fs, hf, hn⟩ := k.trace
  refine ⟨k.cfg.trans h.cfg, k.seq.trans h.seq, k.col.trans h.col, k.source.trans h.source,
    k.stim.trans h.stim, ?_, ?_, ?_, ⟨es ++ fs, ?_, ?_⟩, ?_⟩
  · rw [k.pin, h.pin, levelAfter_append]
  · rw [k.tickno, h.tickno, List.count_append]; omega
  · have := h.real; have := k.real
    rw [List.count_append]; omega
  · rw [hf, he, List.append_assoc]
  · rw [List.map_append, hm, hn, traceOf_append]
  · intro hs
    have ht := h.default hs
    have hr := k.default (by rw [ht]; exact hs)
    rw [hr, ht]
    simp [levelAfter_append, Bool.or_assoc, Nat.add_assoc]

theorem performed_nil (s : State) : Performed [] s s :=
  ⟨rfl, rfl, rfl, rfl, rfl, rfl, rfl, ⟨le_refl _, le_refl _⟩, ⟨[], by simp, rfl⟩,
    fun _ => by simp [levelAfter, traceOf]⟩

/-- Performing a list does what `Performed` says of it (R75). -/
theorem perform_performed (us : List Uop) (s : State) : Performed us s (perform us s) := by
  induction us generalizing s with
  | nil => exact performed_nil s
  | cons u us ih => exact performed_append (doUop_performed u s) (ih (doUop u s))

theorem perform_append (us vs : List Uop) (s : State) :
    perform (us ++ vs) s = perform vs (perform us s) := by
  induction us generalizing s with
  | nil => rfl
  | cons u us ih => exact ih (doUop u s)

@[simp] theorem perform_cfg (us : List Uop) (s : State) : (perform us s).cfg = s.cfg :=
  (perform_performed us s).cfg

/-- `BYTE` of some channels one after another is the list of their micro-operations. -/
theorem sendBytes_eq (c : Color) (ks : List Channel) (s : State) :
    ks.foldl (fun t k => sendByte (c.channel k) t) s
      = perform (ks.flatMap fun k => byteOps s.cfg (c.channel k)) s := by
  induction ks generalizing s with
  | nil => rfl
  | cons k ks ih =>
    rw [List.foldl_cons, ih, List.flatMap_cons, perform_append, sendByte, perform_cfg]

/-- `COLOR c` is the list `Color(c)` (R107). -/
theorem sendColor_eq (c : Color) (s : State) : sendColor c s = perform (colorOps s.cfg c) s :=
  sendBytes_eq c s.cfg.channelOrder s

/-- What `F` can do: a color came back and the latch takes it, or the end mark did; nothing else changes. -/
theorem fetch_cases (s : State) :
    (∃ c, decodeItem (s.source.pop).1 = some c ∧ fetch s = (some c, { s with
        source := (s.source.pop).2, col := c, log := .fetched (some c) :: s.log }))
    ∨ (decodeItem (s.source.pop).1 = none ∧ fetch s = (none, { s with
        source := (s.source.pop).2, log := .fetched none :: s.log })) := by
  unfold fetch
  cases h : decodeItem (s.source.pop).1 with
  | none => exact .inr ⟨rfl, rfl⟩
  | some c => exact .inl ⟨c, rfl, rfl⟩

end Sys2Proof.Machine
end

