-- ==== Sys2Proof/Laws/PerInstr.lean ====
section
/-! SUPPORT. Statements about every instruction as syntax, one lemma per constructor. -/

namespace Sys2Proof.Laws.EncodedWordFits

/-- The word of an operation has no bit above the width of its place (R56 to R58). -/
def Statement (i : Instr) : Prop := (encode i).2 < 2 ^ (encode i).1.width

theorem new : Statement .new := by unfold Statement; decide
theorem write : Statement .write := by unfold Statement; decide
theorem color (c : Color) : Statement (.color c) := (colorWord c).isLt
theorem endSeq : Statement .endSeq := by unfold Statement; decide
theorem gap : Statement .gap := by unfold Statement; decide
theorem byte (v : Byte) : Statement (.byte v) := v.isLt
theorem sym1Std : Statement .sym1Std := by unfold Statement; decide
theorem sym0Std : Statement .sym0Std := by unfold Statement; decide
theorem sym1Deg : Statement .sym1Deg := by unfold Statement; decide
theorem sym0Deg : Statement .sym0Deg := by unfold Statement; decide
theorem w : Statement .w := by unfold Statement; decide
theorem h : Statement .h := by unfold Statement; decide
theorem l : Statement .l := by unfold Statement; decide
theorem f : Statement .f := by unfold Statement; decide

end Sys2Proof.Laws.EncodedWordFits
end

