-- ==== Sys2Proof/Laws/Step.lean ====
section
/-! SUPPORT. The step by stimulus, the sequencer by state, `seq` and the micro-operations, and runs of
several steps. -/

namespace Sys2Proof.Machine

open Sys2Proof.Safety

/-! The step by stimulus. -/

theorem step_nil (s : State) (h : s.stim = []) : step s = sequencer s := by
  unfold step
  rw [h]

theorem step_new (s : State) (rest : List Stimulus) (h : s.stim = .new :: rest) :
    step s = exec .new { s with stim := rest } := by
  unfold step
  rw [h]

theorem step_start (s : State) (rest : List Stimulus) (h : s.stim = .start :: rest) :
    step s = acceptStart { s with stim := rest } := by
  unfold step
  rw [h]

theorem step_pass (s : State) (rest : List Stimulus) (h : s.stim = .pass :: rest) :
    step s = sequencer { s with stim := rest } := by
  unfold step
  rw [h]

theorem step_awaitDone (s : State) (rest : List Stimulus) (h : s.stim = .awaitDone :: rest) :
    step s = if busy s then sequencer s else .next { s with stim := rest } := by
  unfold step
  rw [h]

theorem step_forbidden (s : State) (k : Forbidden) (rest : List Stimulus)
    (h : s.stim = .forbidden k :: rest) : step s = .refused .noSuchRequest := by
  unfold step
  rw [h]

theorem step_alone_ok (s : State) (p : Place) (w : Nat) (rest : List Stimulus) (i : Instr)
    (h : s.stim = .alone p w :: rest) (hd : decode p w = .ok i) :
    step s = exec i { s with stim := rest } := by
  unfold step
  rw [h]
  simp only [hd]

theorem step_alone_error (s : State) (p : Place) (w : Nat) (rest : List Stimulus) (r : Reject)
    (h : s.stim = .alone p w :: rest) (hd : decode p w = .error r) :
    step s = .refused (.wordSelectsNothing r) := by
  unfold step
  rw [h]
  simp only [hd]

/-! The sequencer by state (R106). -/

theorem sequencer_unbound (s : State) (h : s.seq = .unbound) : sequencer s = .next s := by
  unfold sequencer
  rw [h]

theorem sequencer_idle (s : State) (h : s.seq = .idle) : sequencer s = .next s := by
  unfold sequencer
  rw [h]

theorem sequencer_fetch_some (s t : State) (c : Color) (h : s.seq = .fetch)
    (hf : fetch s = (some c, t)) : sequencer s = .next { t with seq := channelStart t.cfg 0 } := by
  unfold sequencer
  rw [h, hf]

theorem sequencer_fetch_none (s t : State) (h : s.seq = .fetch) (hf : fetch s = (none, t)) :
    sequencer s = .next { t with seq := .gap t.cfg.gapTicks } := by
  unfold sequencer
  rw [h, hf]

theorem sequencer_sym (s : State) (ch : Fin 3) (i : Fin 8) (u : Fin 5) (bit : Bool)
    (h : s.seq = .sym ch i u) (hb : symBit s.cfg s.col ch i = some bit) :
    sequencer s = .next { doUop ((scheduleOf s.cfg bit).op u) s with seq := nextSeq s.cfg ch i u } := by
  unfold sequencer
  rw [h]
  simp only [hb]

theorem sequencer_sym_none (s : State) (ch : Fin 3) (i : Fin 8) (u : Fin 5) (h : s.seq = .sym ch i u)
    (hb : symBit s.cfg s.col ch i = none) : sequencer s = .refused .seqOutOfRange := by
  unfold sequencer
  rw [h]
  simp only [hb]

theorem sequencer_gap_zero (s : State) (h : s.seq = .gap 0) :
    sequencer s = .refused .seqOutOfRange := by
  unfold sequencer
  rw [h]

theorem sequencer_gap_one (s : State) (h : s.seq = .gap 1) :
    sequencer s = .next { emit (.done .ok) (opW s) with seq := .idle } := by
  unfold sequencer
  rw [h]

theorem sequencer_gap_more (s : State) (n : Nat) (h : s.seq = .gap (n + 2)) :
    sequencer s = .next { opW s with seq := .gap (n + 1) } := by
  unfold sequencer
  rw [h]

/-- What the sequencer can do (R106): nothing, a fetch, a micro-operation of a symbol, or a wait of the
gap. -/
theorem sequencer_cases (s t : State) (h : sequencer s = .next t) :
    ((s.seq = .unbound ∨ s.seq = .idle) ∧ t = s)
    ∨ (∃ c r, s.seq = .fetch ∧ fetch s = (some c, r) ∧ t = { r with seq := channelStart r.cfg 0 })
    ∨ (∃ r, s.seq = .fetch ∧ fetch s = (none, r) ∧ t = { r with seq := .gap r.cfg.gapTicks })
    ∨ (∃ ch i u bit, s.seq = .sym ch i u ∧ symBit s.cfg s.col ch i = some bit
      ∧ t = { doUop ((scheduleOf s.cfg bit).op u) s with seq := nextSeq s.cfg ch i u })
    ∨ (s.seq = .gap 1 ∧ t = { emit (.done .ok) (opW s) with seq := .idle })
    ∨ (∃ n, s.seq = .gap (n + 2) ∧ t = { opW s with seq := .gap (n + 1) }) := by
  cases hq : s.seq with
  | unbound =>
    rw [sequencer_unbound s hq] at h
    cases h
    exact .inl ⟨.inl rfl, rfl⟩
  | idle =>
    rw [sequencer_idle s hq] at h
    cases h
    exact .inl ⟨.inr rfl, rfl⟩
  | fetch =>
    rcases hf : fetch s with ⟨a, r⟩
    cases a with
    | none =>
      rw [sequencer_fetch_none s r hq hf] at h
      cases h
      exact .inr (.inr (.inl ⟨r, rfl, rfl, rfl⟩))
    | some c =>
      rw [sequencer_fetch_some s r c hq hf] at h
      cases h
      exact .inr (.inl ⟨c, r, rfl, rfl, rfl⟩)
  | sym ch i u =>
    cases hb : symBit s.cfg s.col ch i with
    | none =>
      rw [sequencer_sym_none s ch i u hq hb] at h
      cases h
    | some bit =>
      rw [sequencer_sym s ch i u bit hq hb] at h
      cases h
      exact .inr (.inr (.inr (.inl ⟨ch, i, u, bit, rfl, hb, rfl⟩)))
  | gap n =>
    match n, hq with
    | 0, hq =>
      rw [sequencer_gap_zero s hq] at h
      cases h
    | 1, hq =>
      rw [sequencer_gap_one s hq] at h
      cases h
      exact .inr (.inr (.inr (.inr (.inl ⟨rfl, rfl⟩))))
    | n + 2, hq =>
      rw [sequencer_gap_more s n hq] at h
      cases h
      exact .inr (.inr (.inr (.inr (.inr ⟨n, rfl, rfl⟩))))

/-- A bit is sent in every sequencer state in the ranges of R12. -/
theorem symBit_some (cfg : Config) (c : Color) (ch : Fin 3) (i : Fin 8) (hch : ch.val < cfg.channels)
    (hi : i.val < cfg.bits) : ∃ b, symBit cfg c ch i = some b := by
  unfold symBit chan
  rw [if_pos hi, List.getElem?_eq_getElem (by rw [cfg.channels_eq]; exact hch)]
  exact ⟨_, rfl⟩

/-- From a symbol in the ranges of R12 the sequencer goes to `FETCH` or to a symbol in those ranges. -/
theorem nextSeq_cases (cfg : Config) (ch : Fin 3) (i : Fin 8) (u : Fin 5) (hch : ch.val < cfg.channels)
    (hi : i.val < cfg.bits) :
    nextSeq cfg ch i u = .fetch ∨ ∃ ch' i' u', nextSeq cfg ch i u = .sym ch' i' u'
      ∧ ch'.val < cfg.channels ∧ i'.val < cfg.bits := by
  have hb := cfg.bits_range
  unfold nextSeq channelStart
  split
  · exact .inr ⟨_, _, _, rfl, hch, hi⟩
  · split
    · exact .inr ⟨_, _, _, rfl, hch, Nat.lt_of_le_of_lt (Nat.sub_le _ _) hi⟩
    · split
      · next hc => exact .inr ⟨_, _, _, rfl, hc, Nat.sub_lt hb.1 (by decide)⟩
      · exact .inl rfl

/-- What a step can do under a host at the ports: the sequencer acts, the host lets an idle block be, or
a strobe is accepted; what the host will still do is again a host's. -/
theorem step_host_cases (s t : State) (hh : hostOnly s = true) (h : step s = .next t) :
    ∃ rest, rest.all isHost = true ∧
      (sequencer { s with stim := rest } = .next t ∧ (∀ r, s.stim ≠ .new :: r) ∧ (∀ r, s.stim ≠ .start :: r)
      ∨ (busy s = false ∧ (∃ r, s.stim = .awaitDone :: r) ∧ t = { s with stim := rest })
      ∨ (s.seq = .unbound ∧ (∃ r, s.stim = .new :: r)
        ∧ t = { opL (emit .new { s with stim := rest }) with seq := .idle })
      ∨ (s.seq = .idle ∧ (∃ r, s.stim = .start :: r) ∧ t = begin { s with stim := rest })) := by
  unfold hostOnly at hh
  cases hs : s.stim with
  | nil =>
    rw [step_nil s hs] at h
    refine ⟨[], rfl, .inl ⟨?_, by simp, by simp⟩⟩
    rw [← hs]
    exact h
  | cons a rest =>
    rw [hs, List.all_cons, Bool.and_eq_true] at hh
    obtain ⟨ha, hr⟩ := hh
    cases a with
    | new =>
      rw [step_new s rest hs] at h
      simp only [exec, execNew] at h
      split at h
      · next hq =>
        cases h
        exact ⟨rest, hr, .inr (.inr (.inl ⟨hq, ⟨rest, rfl⟩, rfl⟩))⟩
      · cases h
    | start =>
      rw [step_start s rest hs, acceptStart] at h
      split at h
      · next hq =>
        cases h
        exact ⟨rest, hr, .inr (.inr (.inr ⟨hq, ⟨rest, rfl⟩, rfl⟩))⟩
      · cases h
    | pass =>
      rw [step_pass s rest hs] at h
      exact ⟨rest, hr, .inl ⟨h, by simp, by simp⟩⟩
    | awaitDone =>
      rw [step_awaitDone s rest hs] at h
      split at h
      · refine ⟨.awaitDone :: rest, by rw [List.all_cons, hr]; rfl, .inl ⟨?_, by simp, by simp⟩⟩
        rw [← hs]
        exact h
      · next hb =>
        cases h
        exact ⟨rest, hr, .inr (.inl ⟨by simpa using hb, ⟨rest, rfl⟩, rfl⟩)⟩
    | forbidden k =>
      rw [step_forbidden s k rest hs] at h
      cases h
    | alone p w => cases ha

/-! No micro-operation reads or writes `seq` (R71 to R73), nor `cfg`, `col` and `stim`. -/

theorem doUop_setSeq (u : Uop) (s : State) (q : Seq) :
    doUop u { s with seq := q } = { doUop u s with seq := q } := by
  cases u <;> rfl

theorem perform_setSeq (us : List Uop) (s : State) (q : Seq) :
    perform us { s with seq := q } = { perform us s with seq := q } := by
  induction us generalizing s with
  | nil => rfl
  | cons u us ih => simp only [perform]; rw [doUop_setSeq, ih]

@[simp] theorem doUop_stim (u : Uop) (s : State) : (doUop u s).stim = s.stim :=
  (doUop_performed u s).stim

@[simp] theorem doUop_cfg (u : Uop) (s : State) : (doUop u s).cfg = s.cfg := (doUop_performed u s).cfg

@[simp] theorem doUop_col (u : Uop) (s : State) : (doUop u s).col = s.col := (doUop_performed u s).col

/-! Runs. -/

theorem run_one (s t : State) (h : step s = .next t) : Host.Core.run core 1 s = .next t := by
  have h' : core.step s = .next t := h
  simp only [Host.Core.run, h']

/-- A run of `a + b` steps is a run of `a` steps and then one of `b`. -/
theorem run_add (a b : Nat) (s t : State) (h : Host.Core.run core a s = .next t) :
    Host.Core.run core (a + b) s = Host.Core.run core b t := by
  induction a generalizing s with
  | zero =>
    cases h
    rw [Nat.zero_add]
  | succ a ih =>
    rw [show a + 1 + b = (a + b) + 1 by omega]
    simp only [Host.Core.run] at h ⊢
    split at h
    · exact ih _ h
    · cases h
    · cases h

end Sys2Proof.Machine
end

