-- ==== Sys2Proof/Laws/Transaction.lean ====
section
/-! SUPPORT. Counts of symbols, colors and traces, and what the fetch loop of a transaction does. -/

namespace Sys2Proof.Machine

open Sys2Proof.Safety

/-- Every schedule of `SYMTAB`: three waits, one `H`, one `L`, five in all, and the pin left low (R87). -/
theorem symtab_counts (d : DegTable) (v : Variant) (b : Bool) :
    (symtab d v b).toList.count .w = 3 ∧ (symtab d v b).toList.count .h = 1
    ∧ (symtab d v b).toList.count .l = 1 ∧ (symtab d v b).toList.length = 5
    ∧ ∀ p, levelAfter (symtab d v b).toList p = false := by
  cases d <;> cases v <;> cases b <;> decide

theorem symbolOps_cons (cfg : Config) (b : Bool) (bs : List Bool) :
    symbolOps cfg (b :: bs) = (symtab cfg.degTable cfg.variant b).toList ++ symbolOps cfg bs := rfl

/-- The symbols of two lists of bits, one after the other. -/
theorem symbolOps_append (cfg : Config) (a b : List Bool) :
    symbolOps cfg (a ++ b) = symbolOps cfg a ++ symbolOps cfg b := by
  simp [symbolOps]

/-- The counts of a list of symbols, and that it leaves the pin low unless it is empty (R87). -/
theorem symbolOps_counts (cfg : Config) (bs : List Bool) :
    (symbolOps cfg bs).count .w = 3 * bs.length ∧ (symbolOps cfg bs).count .h = bs.length
    ∧ (symbolOps cfg bs).count .l = bs.length ∧ (symbolOps cfg bs).length = 5 * bs.length
    ∧ (bs ≠ [] → ∀ p, levelAfter (symbolOps cfg bs) p = false) := by
  induction bs with
  | nil => simp [symbolOps]
  | cons b bs ih =>
    obtain ⟨h1, h2, h3, h4, h5⟩ := symtab_counts cfg.degTable cfg.variant b
    obtain ⟨i1, i2, i3, i4, i5⟩ := ih
    rw [symbolOps_cons]
    simp only [List.count_append, List.length_append, List.length_cons, levelAfter_append]
    refine ⟨by omega, by omega, by omega, by omega, ?_⟩
    intro _ p
    rw [h5]
    cases bs with
    | nil => rfl
    | cons b' bs' => exact i5 (by simp) false

/-- The symbols of lists of bits joined. -/
theorem symbolOps_flatMap {α : Type} (cfg : Config) (f : α → List Bool) (l : List α) :
    l.flatMap (fun a => symbolOps cfg (f a)) = symbolOps cfg (l.flatMap f) := by
  induction l with
  | nil => rfl
  | cons a l ih => simp [ih, symbolOps_append]

/-- A color is the symbols of its bits in wire order (R34). -/
theorem colorOps_eq_symbolOps (cfg : Config) (c : Color) :
    colorOps cfg c = symbolOps cfg (colorBits cfg c) :=
  symbolOps_flatMap cfg (fun k => byteBits cfg (c.channel k)) cfg.channelOrder

/-- A channel has `BITS` bits. -/
theorem byteBits_length (cfg : Config) (v : Byte) : (byteBits cfg v).length = cfg.bits := by
  simp [byteBits, bitsDown]

/-- A color has `BITS` bits in each of its `CHANNELS`. -/
theorem colorBits_length (cfg : Config) (c : Color) : (colorBits cfg c).length = cfg.colorBitCount := by
  rw [Config.colorBitCount, ← cfg.channels_eq, Nat.mul_comm]
  unfold colorBits
  induction cfg.channelOrder with
  | nil => simp
  | cons k ks ih =>
    rw [List.flatMap_cons, List.length_append, byteBits_length, ih, List.length_cons]
    ring

/-- A build sends at least one bit for a color. -/
theorem colorBitCount_pos (cfg : Config) : 0 < cfg.colorBitCount :=
  Nat.mul_pos cfg.bits_range.1 cfg.channels_range.1

/-- The counts of a color (R103). -/
theorem colorOps_counts (cfg : Config) (c : Color) :
    (colorOps cfg c).count .w = cfg.colorTicks ∧ (colorOps cfg c).count .h = cfg.colorBitCount
    ∧ (colorOps cfg c).count .l = cfg.colorBitCount
    ∧ (colorOps cfg c).length = cfg.symOps * cfg.colorBitCount
    ∧ ∀ p, levelAfter (colorOps cfg c) p = false := by
  rw [colorOps_eq_symbolOps]
  obtain ⟨h1, h2, h3, h4, h5⟩ := symbolOps_counts cfg (colorBits cfg c)
  rw [colorBits_length] at h1 h2 h3 h4
  have hne : colorBits cfg c ≠ [] := by
    have := colorBitCount_pos cfg
    rw [← colorBits_length cfg c] at this
    exact List.ne_nil_of_length_pos this
  refine ⟨?_, h2, h3, ?_, h5 hne⟩
  · rw [h1, Config.colorTicks, cfg.symTicks_eq]
  · rw [h4, Config.symOps, cfg.symTicks_eq]

/-- The colors of a frame are the symbols of their bits. -/
theorem flatMap_colorOps (cfg : Config) (cs : List Color) :
    cs.flatMap (colorOps cfg) = symbolOps cfg (cs.flatMap (colorBits cfg)) := by
  rw [← symbolOps_flatMap]
  simp only [← colorOps_eq_symbolOps]

/-- The bits of a sequence of `N` colors. -/
theorem flatMap_colorBits_length (cfg : Config) (cs : List Color) :
    (cs.flatMap (colorBits cfg)).length = cfg.colorBitCount * cs.length := by
  induction cs with
  | nil => simp
  | cons c cs ih =>
    simp only [List.flatMap_cons, List.length_append, colorBits_length, ih, List.length_cons]
    ring

/-- The first `5 k` micro-operations are the first `k` symbols. -/
theorem symbolOps_take (cfg : Config) (bs : List Bool) (k : Nat) :
    (symbolOps cfg bs).take (5 * k) = symbolOps cfg (bs.take k) := by
  induction bs generalizing k with
  | nil => simp [symbolOps]
  | cons b bs ih =>
    cases k with
    | zero => simp [symbolOps]
    | succ k =>
      have h := (symtab_counts cfg.degTable cfg.variant b).2.2.2.1
      rw [List.take_succ_cons, symbolOps_cons, symbolOps_cons, List.take_append, h,
        show 5 * (k + 1) - 5 = 5 * k by omega, ih, List.take_of_length_le (by omega)]

/-- Waits leave the pin. -/
theorem levelAfter_waits (n : Nat) (p : Bool) : levelAfter (List.replicate n .w) p = p := by
  induction n with
  | zero => rfl
  | succ n ih => simpa [List.replicate_succ, levelAfter] using ih

/-! Traces. -/

/-- The default trace has no fault mark. -/
theorem unmark_traceOf (us : List Uop) : (traceOf us).map unmark = traceOf us := by
  simp only [traceOf, List.map_map]
  apply List.map_congr_left
  intro u _
  cases u <;> rfl

/-- A list's waits are its trace's ticks. -/
theorem traceOf_ticks (us : List Uop) : (traceOf us).countP isTick = us.count .w := by
  rw [traceOf, List.countP_map, List.count]
  congr 1
  funext u
  cases u <;> rfl

/-- A list's `H` are its trace's. -/
theorem traceOf_highs (us : List Uop) : (traceOf us).count .high = us.count .h := by
  induction us with
  | nil => rfl
  | cons u us ih => cases u <;> simp_all [traceOf, eventOf]

/-- A list's `L` are its trace's. -/
theorem traceOf_lows (us : List Uop) : (traceOf us).count .low = us.count .l := by
  induction us with
  | nil => rfl
  | cons u us ih => cases u <;> simp_all [traceOf, eventOf]

/-- A list of micro-operations fetches nothing. -/
theorem traceOf_fetches (us : List Uop) : (traceOf us).countP isFetch = 0 := by
  induction us with
  | nil => rfl
  | cons u us ih => cases u <;> simp_all [traceOf, eventOf, isFetch]

/-! The fetch loop of a transaction. -/

/-- A state after the fetch of the end mark. -/
def atEnd (s : State) (ws : List ItemWord) : State :=
  { s with source := { s.source with words := ws }, log := .fetched none :: s.log }

/-- `END`, reached by the fetch of the end mark, is a transaction of no colors. -/
theorem finish_sent (s : State) : Sent [] s (finish (atEnd s (wordsAfter s.source.words))) := by
  have hp := perform_performed (gapOps s.cfg) (atEnd s (wordsAfter s.source.words))
  have ht : (finish (atEnd s (wordsAfter s.source.words))).trace
      = (perform (gapOps s.cfg) (atEnd s (wordsAfter s.source.words))).trace ++ [.done .ok] := by
    simp [finish, sendGap, emit, trace_eq, atEnd]
  refine ⟨rfl, hp.cfg, hp.stim, hp.source, hp.col, hp.pin.trans (levelAfter_waits _ _), ?_, ?_, ?_, ?_⟩
  · refine hp.tickno.trans ?_
    simp [gapOps, atEnd]
  · have := hp.real
    simp only [gapOps, List.count_replicate_self] at this
    simp only [List.length_nil, Nat.mul_zero, Nat.zero_add]
    exact this
  · obtain ⟨es, h1, h2⟩ := hp.trace
    refine ⟨.fetched none :: es ++ [.done .ok], ?_, ?_⟩
    · rw [ht, h1]
      simp [trace_eq, atEnd]
    · simp [h2, bodyTrace, unmark]
  · intro he
    have hd := hp.default he
    refine ⟨?_, ?_, ?_, ?_⟩
    · show (perform (gapOps s.cfg) _).env = _
      rw [hd]
      exact he
    · rw [ht, hd]
      simp [bodyTrace, trace_eq, atEnd]
    · show (perform (gapOps s.cfg) _).realTicks = _
      rw [hd]
      simp [gapOps, atEnd]
    · show (perform (gapOps s.cfg) _).pinHeld = _
      rw [hd]
      simp [gapOps, atEnd]

/-- The fetch on a source whose words are used up. -/
theorem fetch_ends (s : State) (hw : s.source.words = []) (ht : s.source.tail = .ends) :
    fetch s = (none, atEnd s []) := by
  have : (⟨[], .ends⟩ : Source) = s.source := by rw [← hw, ← ht]
  simp [fetch, Source.pop, hw, ht, atEnd, this]

/-- The fetch of an end mark. -/
theorem fetch_end (s : State) (w : ItemWord) (ws : List ItemWord) (hw : s.source.words = w :: ws)
    (hd : decodeItem w = none) : fetch s = (none, atEnd s ws) := by
  simp [fetch, Source.pop, hw, hd, atEnd]

/-- The fetch of a color. -/
theorem fetch_color (s : State) (w : ItemWord) (ws : List ItemWord) (c : Color)
    (hw : s.source.words = w :: ws) (hd : decodeItem w = some c) :
    fetch s = (some c, { s with
      source := { s.source with words := ws }, col := c, log := .fetched (some c) :: s.log }) := by
  simp [fetch, Source.pop, hw, hd]

/-- What the fetch loop of `WRITE` does, and that it ends, on a source that yields `cs` (R102). -/
theorem sendAll_sent (ws : List ItemWord) (s : State) (cs : List Color) (hw : s.source.words = ws)
    (hc : colorsOf s.source.tail ws = some cs) :
    ∃ t, sendAll (ws.length + 1) s = some t ∧ Sent cs s t := by
  induction ws generalizing s cs with
  | nil =>
    unfold colorsOf at hc
    cases ht : s.source.tail with
    | endless n =>
      rw [ht] at hc
      cases hc
    | ends =>
      rw [ht] at hc
      cases hc
      have hs := finish_sent s
      simp only [hw, wordsAfter] at hs
      exact ⟨_, by simp only [sendAll, fetch_ends s hw ht], hs⟩
  | cons w ws ih =>
    unfold colorsOf at hc
    cases hd : decodeItem w with
    | none =>
      rw [hd] at hc
      cases hc
      have hs := finish_sent s
      simp only [hw, wordsAfter, hd] at hs
      exact ⟨_, by simp only [sendAll, fetch_end s w ws hw hd], hs⟩
    | some c =>
      rw [hd] at hc
      simp only [Option.map_eq_some_iff] at hc
      obtain ⟨cs', hc', rfl⟩ := hc
      let s1 : State := { s with
        source := { s.source with words := ws }, col := c, log := .fetched (some c) :: s.log }
      have hf : fetch s = (some c, s1) := fetch_color s w ws c hw hd
      have hp := perform_performed (colorOps s1.cfg c) s1
      rw [← sendColor_eq] at hp
      obtain ⟨k1, k2, -, -, k5⟩ := colorOps_counts s1.cfg c
      obtain ⟨t, ht, st⟩ := ih (sendColor c s1) cs' (by rw [hp.source]) (by rw [hp.source]; exact hc')
      refine ⟨t, by simp only [List.length_cons, sendAll, hf]; exact ht, ?_⟩
      refine ⟨st.seq, st.cfg.trans hp.cfg, st.stim.trans hp.stim, ?_, ?_, ?_, ?_, ?_, ?_, ?_⟩
      · rw [st.source, hp.source]
        simp [hw, wordsAfter, hd, s1]
      · rw [st.col, hp.col]
        cases cs' with
        | nil => rfl
        | cons a l =>
          rw [List.getLast?_cons_cons, List.getLast?_eq_some_getLast (List.cons_ne_nil a l)]
          rfl
      · rw [st.pin, hp.pin, k5]
        simp
      · rw [st.tickno, hp.tickno, hp.cfg, k1]
        simp only [s1, List.length_cons, Nat.mul_succ]
        omega
      · have h1 := st.real
        have h2 := hp.real
        rw [hp.cfg] at h1
        rw [k1] at h2
        simp only [s1, List.length_cons, Nat.mul_succ] at *
        omega
      · obtain ⟨es, e1, e2⟩ := st.trace
        obtain ⟨fs, f1, f2⟩ := hp.trace
        refine ⟨.fetched (some c) :: fs ++ es, ?_, ?_⟩
        · rw [e1, f1]
          simp [s1, trace_eq]
        · simp [f2, e2, hp.cfg, bodyTrace, colorTrace, unmark, s1]
      · intro he
        have hd' := hp.default he
        obtain ⟨n1, n2, n3, n4⟩ := st.never (by rw [hd']; exact he)
        have htr : (sendColor c s1).trace = s.trace ++ colorTrace s.cfg c := by
          rw [hd']
          simp [trace_eq, colorTrace, s1]
        have hany : (colorOps s1.cfg c).any (· != .w) = true := by
          rw [List.any_eq_true]
          exact ⟨.h, List.count_pos_iff.1 (k2 ▸ colorBitCount_pos _), rfl⟩
        refine ⟨n1, ?_, ?_, ?_⟩
        · rw [n2, hp.cfg, htr]
          simp [bodyTrace, s1]
        · rw [n3, hp.cfg, hd', k1]
          simp only [s1, List.length_cons, Nat.mul_succ]
          omega
        · rw [n4, hd']
          simp [hany]

end Sys2Proof.Machine
end

