-- ==== Sys2Proof/Laws/Run.lean ====
section
/-! SUPPORT. What runs of the step function do: a symbol, a channel, a color, the gap, a transaction. -/

namespace Sys2Proof.Machine

open Sys2Proof.Safety

/-- The host does nothing before `done`: it has no stimulus left, or waits for `busy` to be 0. -/
def Waiting (s : State) : Prop := s.stim = [] ∨ ∃ rest, s.stim = .awaitDone :: rest

/-- While the host waits and the block is busy, a step is the sequencer's action. -/
theorem step_waiting (s : State) (h : Waiting s) (hb : busy s = true) : step s = sequencer s := by
  rcases h with h | ⟨rest, h⟩
  · exact step_nil s h
  · rw [step_awaitDone s rest h, if_pos hb]

theorem waiting_seq (s : State) (q : Seq) (h : Waiting s) : Waiting { s with seq := q } := h

theorem waiting_perform (us : List Uop) (s : State) (h : Waiting s) : Waiting (perform us s) := by
  unfold Waiting
  rw [(perform_performed us s).stim]
  exact h

/-! In the lemmas below the micro-operations `us` of the transaction so far have been performed. -/

/-- A step in `SYM(ch, i, u)` (R106). -/
theorem step_at_sym (s : State) (us : List Uop) (ch : Fin 3) (i : Fin 8) (u : Fin 5) (bit : Bool)
    (h : Waiting s) (hb : symBit s.cfg s.col ch i = some bit) :
    step { perform us s with seq := .sym ch i u }
      = .next { perform (us ++ [(scheduleOf s.cfg bit).op u]) s with seq := nextSeq s.cfg ch i u } := by
  have hp := perform_performed us s
  rw [step_waiting _ (waiting_seq _ _ (waiting_perform us s h)) rfl,
    sequencer_sym { perform us s with seq := .sym ch i u } ch i u bit rfl (by rw [hp.cfg, hp.col]; exact hb),
    doUop_setSeq, perform_append, hp.cfg]
  rfl

/-- Inside a symbol the next micro-operation follows (R106). -/
theorem nextSeq_inside (cfg : Config) (ch : Fin 3) (i : Fin 8) (u : Fin 5) (hu : u.val < 4) :
    nextSeq cfg ch i u = .sym ch i ⟨u.val + 1, by omega⟩ := by
  have h : u.val + 1 < cfg.symOps := by
    rw [Config.symOps, cfg.symTicks_eq]
    omega
  simp only [nextSeq, h, dif_pos]

/-- After the last micro-operation of a symbol comes the next lower bit, then the next channel (R106). -/
theorem nextSeq_last (cfg : Config) (ch : Fin 3) (i : Fin 8) :
    nextSeq cfg ch i 4 = if hi : 0 < i.val then .sym ch ⟨i.val - 1, by omega⟩ 0
      else if hc : ch.val + 1 < cfg.channels then
        channelStart cfg ⟨ch.val + 1, by have := cfg.channels_range; omega⟩
      else .fetch := by
  have h : ¬ (4 : Fin 5).val + 1 < cfg.symOps := by
    rw [Config.symOps, cfg.symTicks_eq]
    decide
  simp only [nextSeq, h, dif_neg, not_false_eq_true]

/-- Five steps send a symbol. -/
theorem run_symbol (s : State) (us : List Uop) (ch : Fin 3) (i : Fin 8) (bit : Bool) (h : Waiting s)
    (hb : symBit s.cfg s.col ch i = some bit) :
    Host.Core.run core 5 { perform us s with seq := .sym ch i 0 }
      = .next { perform (us ++ (scheduleOf s.cfg bit).toList) s with seq := nextSeq s.cfg ch i 4 } := by
  have go : ∀ (vs : List Uop) (u : Fin 5) (q : Seq), nextSeq s.cfg ch i u = q →
      step { perform vs s with seq := .sym ch i u }
        = .next { perform (vs ++ [(scheduleOf s.cfg bit).op u]) s with seq := q } := by
    rintro vs u q rfl
    exact step_at_sym s vs ch i u bit h hb
  have next := fun u hu => nextSeq_inside s.cfg ch i u hu
  show Host.Core.run core (1 + (1 + (1 + (1 + 1)))) _ = _
  rw [run_add _ _ _ _ (run_one _ _ (go us 0 (.sym ch i 1) (next 0 (by decide)))),
    run_add _ _ _ _ (run_one _ _ (go _ 1 (.sym ch i 2) (next 1 (by decide)))),
    run_add _ _ _ _ (run_one _ _ (go _ 2 (.sym ch i 3) (next 2 (by decide)))),
    run_add _ _ _ _ (run_one _ _ (go _ 3 (.sym ch i 4) (next 3 (by decide)))),
    run_one _ _ (go _ 4 _ rfl)]
  simp only [List.append_assoc, List.cons_append, List.nil_append]
  rfl

/-- Where the sequencer goes after a channel (R106). -/
def afterByte (cfg : Config) (ch : Fin 3) : Seq :=
  if hc : ch.val + 1 < cfg.channels then
    channelStart cfg ⟨ch.val + 1, by have := cfg.channels_range; omega⟩
  else .fetch

/-- The bits of a channel from bit `n` down, bit `n` first. -/
theorem bitsDown_succ (v : Byte) (n : Nat) : bitsDown v (n + 1) = v.getLsbD n :: bitsDown v n := by
  simp [bitsDown, List.range_succ]

/-- The steps that send the bits of a channel from bit `n` down. -/
theorem run_bits (s : State) (us : List Uop) (ch : Fin 3) (v : Byte) (n : Nat) (hn : n < 8) (h : Waiting s)
    (hs : n < s.cfg.bits) (hv : chan s.cfg s.col ch = some v) :
    Host.Core.run core (5 * (n + 1)) { perform us s with seq := .sym ch ⟨n, hn⟩ 0 }
      = .next { perform (us ++ symbolOps s.cfg (bitsDown v (n + 1))) s with
          seq := afterByte s.cfg ch } := by
  have hb : symBit s.cfg s.col ch ⟨n, hn⟩ = some (v.getLsbD n) := by
    rw [symBit, if_pos hs, hv]
    rfl
  have hsym := run_symbol s us ch ⟨n, hn⟩ _ h hb
  rw [nextSeq_last] at hsym
  induction n generalizing us with
  | zero =>
    rw [show 5 * (0 + 1) = 5 from rfl, hsym, bitsDown_succ, symbolOps_cons]
    simp [bitsDown, symbolOps, afterByte, scheduleOf]
  | succ n ih =>
    have hb' : symBit s.cfg s.col ch ⟨n, by omega⟩ = some (v.getLsbD n) := by
      rw [symBit, if_pos (by show n < _; omega), hv]
      rfl
    have hsym' := run_symbol s (us ++ (scheduleOf s.cfg (v.getLsbD (n + 1))).toList) ch ⟨n, by omega⟩ _ h hb'
    rw [nextSeq_last] at hsym'
    rw [dif_pos (Nat.succ_pos n)] at hsym
    rw [show 5 * (n + 1 + 1) = 5 + 5 * (n + 1) by omega, run_add _ _ _ _ hsym]
    have hr := ih (us ++ (scheduleOf s.cfg (v.getLsbD (n + 1))).toList) (by omega) (by omega) hb' hsym'
    rw [bitsDown_succ, symbolOps_cons, ← List.append_assoc]
    exact hr

/-- The steps that send a channel. -/
theorem run_byte (s : State) (us : List Uop) (ch : Fin 3) (v : Byte) (h : Waiting s)
    (hv : chan s.cfg s.col ch = some v) :
    Host.Core.run core (5 * s.cfg.bits) { perform us s with seq := channelStart s.cfg ch }
      = .next { perform (us ++ byteOps s.cfg v) s with seq := afterByte s.cfg ch } := by
  have hb := s.cfg.bits_range
  have hr := run_bits s us ch v (s.cfg.bits - 1) (by omega) h (by omega) hv
  rw [Nat.sub_add_cancel hb.1] at hr
  exact hr

/-- The steps that send the channels of the latched color from place `k` of the order on. -/
theorem run_channels (s : State) (us : List Uop) (m k : Nat) (hk : k < 3) (h : Waiting s)
    (hm : k + (m + 1) = s.cfg.channels) :
    Host.Core.run core (5 * s.cfg.bits * (m + 1)) { perform us s with seq := channelStart s.cfg ⟨k, hk⟩ }
      = .next { perform (us ++ (s.cfg.channelOrder.drop k).flatMap
            fun c => byteOps s.cfg (s.col.channel c)) s with seq := .fetch } := by
  have hlen := s.cfg.channels_eq
  have hmax := s.cfg.channels_range
  induction m generalizing us k with
  | zero =>
    have hlt : k < s.cfg.channelOrder.length := by omega
    have hlast : ¬ k + 1 < s.cfg.channels := by omega
    have hb := run_byte s us ⟨k, hk⟩ (s.col.channel s.cfg.channelOrder[k]) h (by simp [chan, hlt])
    rw [List.drop_eq_getElem_cons hlt, List.flatMap_cons, List.drop_of_length_le (by omega),
      List.flatMap_nil, List.append_nil, Nat.zero_add, Nat.mul_one, hb]
    simp only [afterByte, hlast, dif_neg, not_false_eq_true]
  | succ m ih =>
    have hlt : k < s.cfg.channelOrder.length := by omega
    have hnext : k + 1 < s.cfg.channels := by omega
    have hb := run_byte s us ⟨k, hk⟩ (s.col.channel s.cfg.channelOrder[k]) h (by simp [chan, hlt])
    simp only [afterByte, hnext, dif_pos] at hb
    rw [show 5 * s.cfg.bits * (m + 1 + 1) = 5 * s.cfg.bits + 5 * s.cfg.bits * (m + 1) by ring,
      run_add _ _ _ _ hb, ih _ (k + 1) (by omega) (by omega), List.drop_eq_getElem_cons hlt,
      List.flatMap_cons, List.append_assoc]

/-- The steps that send the latched color and come back to `FETCH`: one for each of its
micro-operations. -/
theorem run_color (s : State) (h : Waiting s) :
    Host.Core.run core (s.cfg.symOps * s.cfg.colorBitCount) { s with seq := channelStart s.cfg 0 }
      = .next { sendColor s.col s with seq := .fetch } := by
  have hc := s.cfg.channels_range
  have hr := run_channels s [] (s.cfg.channels - 1) 0 (by decide) h (by omega)
  rw [Nat.sub_add_cancel hc.1] at hr
  rw [Config.symOps, s.cfg.symTicks_eq, Config.colorBitCount, ← Nat.mul_assoc, sendColor_eq]
  exact hr

/-- The steps of the gap, with `done` at the last. -/
theorem run_gap (n : Nat) (s : State) (h : Waiting s) :
    Host.Core.run core (n + 1) { s with seq := .gap (n + 1) }
      = .next { emit (.done .ok) (perform (List.replicate (n + 1) .w) s) with seq := .idle } := by
  induction n generalizing s with
  | zero =>
    apply run_one
    rw [step_waiting _ (waiting_seq s _ h) rfl, sequencer_gap_one _ rfl]
    rfl
  | succ n ih =>
    have hw : step { s with seq := .gap (n + 1 + 1) } = .next { opW s with seq := .gap (n + 1) } := by
      rw [step_waiting _ (waiting_seq s _ h) rfl, sequencer_gap_more _ n rfl]
      rfl
    have hr := ih (opW s) (waiting_perform [.w] s h)
    rw [Nat.add_comm (n + 1) 1] at hw ⊢
    rw [run_add 1 (n + 1) _ _ (run_one _ _ hw), hr, Nat.add_comm 1 (n + 1),
      List.replicate_succ (n := n + 1)]
    rfl

/-- The steps after the fetch of the end mark are `END`. -/
theorem run_end (s t : State) (hq : s.seq = .fetch) (h : Waiting s) (hf : fetch s = (none, t))
    (ht : Waiting t) (hc : t.cfg = s.cfg) :
    Host.Core.run core (s.cfg.gapTicks + 1) s = .next (finish t) := by
  have hs : step s = .next { t with seq := .gap t.cfg.gapTicks } := by
    rw [step_waiting s h (by simp [busy, hq]), sequencer_fetch_none _ _ hq hf]
  obtain ⟨n, hn⟩ : ∃ n, t.cfg.gapTicks = n + 1 :=
    ⟨t.cfg.gapTicks - 1, by have := t.cfg.gapTicks_pos; omega⟩
  rw [Nat.add_comm, run_add _ _ _ _ (run_one _ _ hs), ← hc, hn, run_gap n t ht, ← hn]
  rfl

/-- The step function runs the fetch loop of `WRITE` (R108). -/
theorem run_fetches (ws : List ItemWord) (s : State) (cs : List Color) (hw : s.source.words = ws)
    (hq : s.seq = .fetch) (h : Waiting s) (hc : colorsOf s.source.tail ws = some cs) :
    ∃ t, sendAll (ws.length + 1) s = some t
      ∧ Host.Core.run core ((s.cfg.symOps * s.cfg.colorBitCount + 1) * cs.length + s.cfg.gapTicks + 1) s = .next t := by
  induction ws generalizing s cs with
  | nil =>
    unfold colorsOf at hc
    cases ht : s.source.tail with
    | endless n =>
      rw [ht] at hc
      cases hc
    | ends =>
      rw [ht] at hc
      cases hc
      exact ⟨finish (atEnd s []), by simp only [sendAll, fetch_ends s hw ht],
        by simpa using run_end s _ hq h (fetch_ends s hw ht) h rfl⟩
  | cons w ws ih =>
    unfold colorsOf at hc
    cases hd : decodeItem w with
    | none =>
      rw [hd] at hc
      cases hc
      exact ⟨finish (atEnd s ws), by simp only [sendAll, fetch_end s w ws hw hd],
        by simpa using run_end s _ hq h (fetch_end s w ws hw hd) h rfl⟩
    | some c =>
      rw [hd] at hc
      simp only [Option.map_eq_some_iff] at hc
      obtain ⟨cs', hc', rfl⟩ := hc
      let s1 : State := { s with
        source := { s.source with words := ws }, col := c, log := .fetched (some c) :: s.log }
      have hf : fetch s = (some c, s1) := fetch_color s w ws c hw hd
      have hp := perform_performed (colorOps s1.cfg c) s1
      have hwait := waiting_perform (colorOps s1.cfg c) s1 h
      rw [← sendColor_eq] at hp hwait
      obtain ⟨t, ht, hr⟩ := ih (sendColor c s1) cs' (by rw [hp.source]) (by rw [hp.seq]; exact hq)
        hwait (by rw [hp.source]; exact hc')
      refine ⟨t, by simp only [List.length_cons, sendAll, hf]; exact ht, ?_⟩
      have h1 : step s = .next { s1 with seq := channelStart s1.cfg 0 } := by
        rw [step_waiting s h (by simp [busy, hq]), sequencer_fetch_some _ _ _ hq hf]
      have h2 : Host.Core.run core (s.cfg.symOps * s.cfg.colorBitCount)
          { s1 with seq := channelStart s1.cfg 0 } = .next (sendColor c s1) := by
        have hcol := run_color s1 h
        rw [show ({ sendColor s1.col s1 with seq := .fetch } : State) = sendColor c s1 from by
          show ({ sendColor c s1 with seq := .fetch } : State) = sendColor c s1
          rw [show Seq.fetch = (sendColor c s1).seq from (hp.seq.trans hq).symm]] at hcol
        exact hcol
      rw [hp.cfg] at hr
      rw [List.length_cons, show (s.cfg.symOps * s.cfg.colorBitCount + 1) * (cs'.length + 1) + s.cfg.gapTicks + 1
          = 1 + (s.cfg.symOps * s.cfg.colorBitCount
            + ((s.cfg.symOps * s.cfg.colorBitCount + 1) * cs'.length + s.cfg.gapTicks + 1)) by ring,
        run_add _ _ _ _ (run_one _ _ h1), run_add _ _ _ _ h2]
      exact hr

end Sys2Proof.Machine
end

