-- ==== Sys2Proof/Laws/Timing.lean ====
section
/-! SUPPORT. The ranges of the times that claims use. -/

namespace Sys2Proof.Machine

/-- A tick lasts some time. -/
theorem tickPeriodNs_pos (cfg : Config) : 0 < tickPeriodNs cfg := by
  have := cfg.tickHz_pos
  unfold tickPeriodNs
  positivity

/-- The time left until the next tick is above 0 and at most one tick (R19). -/
theorem phase_range (log : List Event) : 0 < phase log ∧ phase log ≤ 1 := by
  unfold phase
  split
  · assumption
  · norm_num

/-- Interval 0 is above 0 and at most one tick (R155). -/
theorem interval0_range (s : State) : 0 < interval0 s ∧ interval0 s ≤ 1 := phase_range _

/-- Interval 0 of a transaction is the timer's phase at its `start`. -/
@[simp] theorem interval0_begin (s : State) : interval0 (begin s) = phase (.start :: s.log) := rfl

/-- A fetch stays within the interval it is in: it takes no time (R6). -/
@[simp] theorem interval0_fetch (s : State) : interval0 (fetch s).2 = interval0 s := by
  unfold fetch
  split <;> rfl

/-- A fetch leaves the timer as sound as it was. -/
@[simp] theorem timerSound_fetch (s : State) : timerSound (fetch s).2 = timerSound s := by
  unfold fetch
  split <;> rfl

/-- In a fault environment that never fails, with no failed wait so far, claims about real time may be
made (R123). -/
theorem timerSound_of_never (s : State) (he : s.env = .never) (hm : s.log.all (· != .tick true) = true) :
    timerSound s = true := by
  rw [timerSound, hm, he]
  rfl

end Sys2Proof.Machine
end

