-- ==== Sys2Proof/Laws/Wire.lean ====
section
/-! SUPPORT. Waveforms, the reference receiver and the low time, on lists of symbols and on whole
transactions. -/

namespace Sys2Proof.Machine

open Sys2Proof.Safety

/-- A wait closes the interval before it, so waveforms join there (R75). -/
theorem waveformFrom_append (us vs : List Uop) (c p h q : Bool) :
    waveformFrom c p h q (us ++ .w :: vs)
      = waveformFrom c p h q us ++ waveform (.w :: vs) (levelAfter us p) := by
  induction us generalizing c p h q with
  | nil => simp [waveformFrom, waveform, levelAfter]
  | cons u us ih => cases u <;> simp [waveformFrom, ih, levelAfter]

/-- Every symbol begins with a wait (R87). -/
theorem symtab_begins (d : DegTable) (v : Variant) (b : Bool) :
    ∃ us, (symtab d v b).toList = .w :: us := by
  cases d <;> cases v <;> cases b <;> exact ⟨_, rfl⟩

/-- The waveform of symbols is their waveforms joined (R52). -/
theorem waveform_symbols (cfg : Config) (bs : List Bool) (rest : List Uop)
    (hr : rest = [] ∨ ∃ us, rest = .w :: us) :
    waveform (symbolOps cfg bs ++ rest) false
      = bs.flatMap (fun b => symbolWave (scheduleOf cfg b)) ++ waveform rest false := by
  induction bs with
  | nil => simp [symbolOps]
  | cons b bs ih =>
    have hl : levelAfter (symtab cfg.degTable cfg.variant b).toList false = false :=
      (symtab_counts _ _ _).2.2.2.2 _
    have hn : symbolOps cfg bs ++ rest = [] ∨ ∃ us, symbolOps cfg bs ++ rest = .w :: us := by
      cases bs with
      | nil => simpa [symbolOps] using hr
      | cons b' bs' =>
        obtain ⟨us, hh⟩ := symtab_begins cfg.degTable cfg.variant b'
        exact .inr ⟨_, by rw [symbolOps_cons, hh]; rfl⟩
    rw [symbolOps_cons, List.append_assoc, List.flatMap_cons, List.append_assoc, ← ih]
    rcases hn with h | ⟨us, h⟩
    · rw [h]
      simp [waveform, waveformFrom, symbolWave, scheduleOf]
    · rw [h, waveform, waveformFrom_append, hl]
      rfl

/-- A list's trace shows the list (R75). -/
theorem opsOf_traceOf (us : List Uop) (es : List Event) :
    opsOf (traceOf us ++ es) = us ++ opsOf es := by
  induction us with
  | nil => rfl
  | cons u us ih => cases u <;> simpa [traceOf, eventOf, opsOf] using ih

/-- Waits on a low pin are low intervals. -/
theorem waveform_waits (n : Nat) : waveform (List.replicate n .w) false = List.replicate n .zero := by
  have go : ∀ n c, waveformFrom c false false false (List.replicate n .w)
      = (if c then [Wave.zero] else []) ++ List.replicate n .zero := by
    intro n
    induction n with
    | zero => intro c; cases c <;> rfl
    | succ n ih => intro c; cases c <;> simp [List.replicate_succ, waveformFrom, ih, waveOf]
  show waveformFrom false false false false _ = _
  rw [go n false]
  rfl

/-- What the receiver reads of a bit in a build: the bit, but 0 under the alternative degraded table
(spec/95_test_vectors.md V75). -/
def readAs (cfg : Config) (b : Bool) : Bool :=
  match cfg.variant, cfg.degTable with
  | .std, _ => b
  | .deg, .zeroShifts => b
  | .deg, .bothShift => false

/-- The receiver reads a symbol (R62). -/
theorem receiveBits_symbol (cfg : Config) (b : Bool) (es : List Event) :
    receiveBits (traceOf (symtab cfg.degTable cfg.variant b).toList ++ es)
      = readAs cfg b :: receiveBits es := by
  unfold readAs
  generalize cfg.degTable = d
  generalize cfg.variant = v
  cases d <;> cases v <;> cases b <;> rfl

/-- The receiver reads symbols. -/
theorem receiveBits_symbols (cfg : Config) (bs : List Bool) (es : List Event) :
    receiveBits (traceOf (symbolOps cfg bs) ++ es) = bs.map (readAs cfg) ++ receiveBits es := by
  induction bs with
  | nil => simp [symbolOps, traceOf]
  | cons b bs ih =>
    rw [symbolOps_cons, traceOf_append, List.append_assoc, receiveBits_symbol, ih]
    rfl

/-- The receiver reads nothing from waits. -/
theorem receiveBits_waits (n : Nat) (es : List Event) :
    receiveBits (traceOf (List.replicate n .w) ++ es) = receiveBits es := by
  induction n with
  | zero => rfl
  | succ n ih => exact ih

/-- The receiver reads the bits of a transaction. -/
theorem receiveBits_frame (cfg : Config) (cs : List Color) (es : List Event) :
    receiveBits (frameTrace cfg cs ++ es)
      = (cs.flatMap (colorBits cfg)).map (readAs cfg) ++ receiveBits es := by
  have go : ∀ fs, receiveBits (cs.flatMap (colorTrace cfg) ++ fs)
      = (cs.flatMap (colorBits cfg)).map (readAs cfg) ++ receiveBits fs := by
    intro fs
    induction cs with
    | nil => simp
    | cons c cs ih =>
      simp only [List.flatMap_cons, List.append_assoc, colorTrace, List.cons_append, receiveBits,
        colorOps_eq_symbolOps, receiveBits_symbols, List.map_append]
      rw [← ih]
  simp only [frameTrace, List.cons_append, List.append_assoc, receiveBits, go]
  simp only [gapOps, receiveBits_waits, receiveBits, List.nil_append]

/-- The receiver does not see fault marks. -/
theorem receiveBits_unmark (es : List Event) :
    receiveBits (es.map unmark) = receiveBits es ∧ ticksToLow (es.map unmark) = ticksToLow es := by
  induction es with
  | nil => simp
  | cons e es ih => cases e <;> simp [receiveBits, ticksToLow, unmark, ih]

/-- The bits of a byte where `BITS` is 8. -/
theorem byteBits_eq (cfg : Config) (v : Byte) (h : cfg.bits = 8) : byteBits cfg v
    = [v.getLsbD 7, v.getLsbD 6, v.getLsbD 5, v.getLsbD 4, v.getLsbD 3, v.getLsbD 2, v.getLsbD 1,
      v.getLsbD 0] := by
  rw [byteBits, h]
  rfl

/-- The bits of a color in the wire format of this hardware. -/
theorem colorBits_eq (cfg : Config) (c : Color) (h : cfg.wireFormat) :
    colorBits cfg c = byteBits cfg c.g ++ (byteBits cfg c.r ++ byteBits cfg c.b) := by
  simp [colorBits, h.2, Color.channel]

/-- `CHANNELS` is 3 in the wire format of this hardware. -/
theorem wireFormat_channels (cfg : Config) (h : cfg.wireFormat) : cfg.channels = 3 := by
  rw [← cfg.channels_eq, h.2]
  rfl

/-- A color has 24 bits and takes 72 ticks in the wire format of this hardware (R34, R50). -/
theorem wireFormat_counts (cfg : Config) (h : cfg.wireFormat) :
    cfg.colorBitCount = 24 ∧ cfg.colorTicks = 72 ∧ cfg.symOps = 5 := by
  simp [Config.colorTicks, Config.colorBitCount, Config.symOps, cfg.symTicks_eq, h.1,
    wireFormat_channels cfg h]

/-- Eight bits sent are the byte. -/
theorem byteOfBits_byteBits (cfg : Config) (v : Byte) (r : List Bool) (h : cfg.bits = 8) :
    byteOfBits (byteBits cfg v ++ r) = v := by
  rw [byteBits_eq cfg v h]
  simp only [byteOfBits, List.cons_append, List.take_succ_cons, List.take_zero, List.foldl]
  ext i hi
  interval_cases i <;> simp [BitVec.getElem_shiftConcat]

/-- The bits of colors group back into the colors. -/
theorem colorsOfBits_colors (cfg : Config) (cs : List Color) (n : Nat) (hn : cs.length ≤ n)
    (h : cfg.wireFormat) : colorsOfBits n (cs.flatMap (colorBits cfg)) = cs := by
  induction cs generalizing n with
  | nil => cases n <;> simp [colorsOfBits]
  | cons c cs ih =>
    cases n with
    | zero => simp at hn
    | succ n =>
      have h24 : (colorBits cfg c ++ cs.flatMap (colorBits cfg)).drop 24 = cs.flatMap (colorBits cfg) := by
        rw [← (wireFormat_counts cfg h).1, ← colorBits_length cfg c, List.drop_left]
      have h8 : ∀ v r, (byteBits cfg v ++ r).drop 8 = r := fun v r => by
        rw [byteBits_eq cfg v h.1]
        rfl
      have h16 : ∀ v w r, (byteBits cfg v ++ (byteBits cfg w ++ r)).drop 16 = r := fun v w r => by
        rw [show 16 = 8 + 8 from rfl, ← List.drop_drop, h8, h8]
      simp only [List.flatMap_cons, colorsOfBits]
      rw [if_neg (by simp [colorBits_length, (wireFormat_counts cfg h).1]), h24,
        ih n (by simpa using hn), colorBits_eq cfg c h]
      simp only [List.append_assoc, h8, h16, byteOfBits_byteBits cfg _ _ h.1]

/-- The receiver returns the colors whose bits it read. -/
theorem receive_of_bits (cfg : Config) (es : List Event) (cs : List Color) (hf : cfg.wireFormat)
    (h : receiveBits es = cs.flatMap (colorBits cfg)) : receive es = cs := by
  rw [receive, h, colorsOfBits_colors cfg cs _ _ hf]
  rw [flatMap_colorBits_length, (wireFormat_counts cfg hf).1]
  omega

/-- The low time of a longer trace. -/
theorem ticksSinceLow_append (es fs : List Event) :
    ticksSinceLow (es ++ fs) = fs.foldl lowStep (ticksSinceLow es) := by
  simp [ticksSinceLow]

/-- Waits add to the low time. -/
theorem lowStep_waits (n k : Nat) : (traceOf (List.replicate n .w)).foldl lowStep k = k + n := by
  induction n generalizing k with
  | zero => rfl
  | succ n ih =>
    rw [List.replicate_succ]
    simp only [traceOf, List.map_cons, List.foldl_cons, eventOf] at *
    rw [ih]
    simp [lowStep, isTick]
    omega

end Sys2Proof.Machine
end

