-- ==== Sys2Proof/Tests/Slice0.lean ====
section
/-! SUPPORT. The model's own tests: ill-formed terms, words written out from spec/30_encoding.md and
spec/opcode_table.json, the vectors of spec/95_test_vectors.md on small states, and for every statement
with hypotheses a witness that meets them together. -/

namespace Sys2Proof.Tests

open Sys2Proof Sys2Proof.Machine Sys2Proof.Safety

/-! ## Helpers -/

/-- A build with a gap of three ticks, so that a transaction stays small. -/
def tiny (v : Variant) (d : DegTable := .zeroShifts) : Config :=
  { variant := v, degTable := d, gapTicks := 3 }

/-- A build that sends four bits of two channels, blue then red: the parameters of R5 at other values. -/
def narrow : Config := { bits := 4, channels := 2, channelOrder := [.blue, .red], gapTicks := 3 }

/-- What a builder asks for: the build this hardware takes, but for the schedule words, the gap and the
strict mode. -/
def asks (v : Variant) (deg0 : ScheduleWord := 0x0E0) (deg1 : ScheduleWord := 0x0C2) (gapTicks : Nat := 900)
    (strictFaults : Bool := false) : BuildOptions :=
  { variant := v, deg0 := deg0, deg1 := deg1, gapTicks := gapTicks, strictFaults := strictFaults }

/-- After reset, in a small build, with an empty log: the start state of the vectors (`pin = 0`,
`tickno = 0`). -/
def ready (v : Variant) (d : DegTable := .zeroShifts) : State :=
  { State.reset with cfg := tiny v d, log := [] }

/-- The state an outcome holds, or the state before construction where there is none. -/
def after (o : Host.Outcome State Fault Refusal) : State :=
  match o with
  | .next s => s
  | .fault _ => State.unbound
  | .refused _ => State.unbound

/-- The reason of a refusal. -/
def refusal (o : Host.Outcome State Fault Refusal) : Option Refusal :=
  match o with
  | .next _ => none
  | .fault _ => none
  | .refused r => some r

/-- `T`. -/
abbrev T : Event := .tick false
/-- `H`. -/
abbrev H : Event := .high
/-- `L`. -/
abbrev L : Event := .low
/-- `THTTL`. -/
abbrev one : List Event := [T, H, T, T, L]
/-- `THTLT`. -/
abbrev zero : List Event := [T, H, T, L, T]
/-- `THLTT`. -/
abbrev short : List Event := [T, H, L, T, T]

/-- The color of V31 and P2. -/
abbrev c123456 : Color := ⟨0x12, 0x34, 0x56⟩

/-- A source with one color and its end mark (P2). -/
def oneColor : Source := ⟨[0x0123456#25, 0x1000000#25], .ends⟩

/-- `ready` with that source. -/
def withColor (v : Variant) : State := { ready v with source := oneColor }

/-- A state inside a symbol: the `H` of bit 7 of green, 0x34 latched, is next. -/
def inSymbol : State :=
  { ready .std with
    seq := .sym 0 7 1, col := c123456, tickno := 1, realTicks := 1
    log := [T, .fetched (some c123456), .start, L, .new] }

/-! ## WellFormed refuses -/

theorem test_wf_four_waits : Schedule.wf ⟨.w, .h, .w, .w, .w⟩ = false := by decide
theorem test_wf_two_highs : Schedule.wf ⟨.w, .h, .h, .w, .l⟩ = false := by decide
theorem test_wf_two_lows : Schedule.wf ⟨.w, .h, .l, .w, .l⟩ = false := by decide
theorem test_wf_begins_high : Schedule.wf ⟨.h, .w, .w, .w, .l⟩ = false := by decide
theorem test_wf_low_before_high : Schedule.wf ⟨.w, .l, .h, .w, .w⟩ = false := by decide
theorem test_wf_late_high : Schedule.wf ⟨.w, .w, .h, .l, .w⟩ = false := by decide
theorem test_wf_standard : Schedule.wf ⟨.w, .h, .w, .l, .w⟩ = true := by decide
theorem test_wf_no_gap : BuildOptions.wf (asks .std (gapTicks := 0)) = false := by decide
theorem test_wf_strict : BuildOptions.wf (asks .std (strictFaults := true)) = false := by decide
/-- The ranges of the other parameters (R5, R12; assumption 15). -/
theorem test_wf_no_bits : BuildOptions.wf { asks .std with bits := 0 } = false := by decide
theorem test_wf_nine_bits : BuildOptions.wf { asks .std with bits := 9 } = false := by decide
theorem test_wf_four_channels : BuildOptions.wf { asks .std with
    channels := 4, channelOrder := [.red, .green, .blue, .red] } = false := by decide
theorem test_wf_short_order : BuildOptions.wf { asks .std with channelOrder := [.green] } = false := by decide
theorem test_wf_four_waits_a_symbol : BuildOptions.wf { asks .std with symTicks := 4 } = false := by decide
theorem test_wf_no_clock : BuildOptions.wf { asks .std with tickHz := 0 } = false := by decide
theorem test_wf_build : BuildOptions.wf (asks .deg) = true := by decide
/-- R59 (a): no operand value is reserved, so no instruction term is ill formed. -/
theorem test_wf_all_bytes : ∀ v : Byte, Instr.wf (.byte v) = true := fun _ => rfl

/-! ## Words written out from the encodings -/

theorem test_decode_new : decode .newStrobe 0b1 = .ok .new := rfl
theorem test_decode_write : decode .startStrobe 0b1 = .ok .write := rfl
/-- V30: r 0x00, g 0xFF, b 0x0F. -/
theorem test_decode_color : decode .item 0b0_00000000_11111111_00001111 = .ok (.color ⟨0x00, 0xFF, 0x0F⟩) := rfl
/-- V34. -/
theorem test_decode_color34 : decode .item 0x0AA5580 = .ok (.color ⟨0xAA, 0x55, 0x80⟩) := rfl
/-- R59 (b): the low 24 bits of the end item are ignored. -/
theorem test_decode_end : decode .item 0b1_10100101_00000000_11111111 = .ok .endSeq := rfl
theorem test_decode_gap : decode .gapCount 0b1110000100 = .ok .gap := rfl
theorem test_decode_byte : decode .channel 0b10100101 = .ok (.byte 0xA5) := rfl
theorem test_decode_sym1_std : decode (.symBit .std) 0b1 = .ok .sym1Std := rfl
theorem test_decode_sym0_std : decode (.symBit .std) 0b0 = .ok .sym0Std := rfl
theorem test_decode_sym1_deg : decode (.symBit .deg) 0b1 = .ok .sym1Deg := rfl
theorem test_decode_sym0_deg : decode (.symBit .deg) 0b0 = .ok .sym0Deg := rfl
theorem test_decode_w : decode .uopCode 0b00 = .ok .w := rfl
theorem test_decode_h : decode .uopCode 0b11 = .ok .h := rfl
theorem test_decode_l : decode .uopCode 0b10 = .ok .l := rfl
theorem test_decode_f : decode .fetchStrobe 0b1 = .ok .f := rfl
theorem test_decode_reserved : decode .uopCode 0b01 = .error .reservedCode := rfl
theorem test_decode_strobe_low : decode .startStrobe 0b0 = .error .strobeLow := rfl
theorem test_decode_too_wide : decode .item 0x2000000 = .error .tooWide := rfl
theorem test_decode_other_gap : decode .gapCount 899 = .error .otherGapCount := rfl
/-- R57: the three schedule words. -/
theorem test_schedule_words : decodeSchedule 0x0C2 = some ⟨.w, .h, .w, .w, .l⟩
    ∧ decodeSchedule 0x0C8 = some ⟨.w, .h, .w, .l, .w⟩
    ∧ decodeSchedule 0x0E0 = some ⟨.w, .h, .l, .w, .w⟩ ∧ decodeSchedule 0x040 = none := by decide
/-- Section 4: the wire words of V30, V31, V32 and V34. -/
theorem test_wire_words : w24 ⟨0x00, 0xFF, 0x0F⟩ = 0xFF000F ∧ w24 c123456 = 0x341256
    ∧ w24 ⟨0xFF, 0, 0⟩ = 0x00FF00 ∧ w24 ⟨0xAA, 0x55, 0x80⟩ = 0x55AA80 := by decide
theorem test_table_words : decodeTableWord 32 0x0123456 = some (.color c123456)
    ∧ decodeTableWord 16 0x384 = some .gap ∧ decodeTableWord 8 0b11 = some .h
    ∧ decodeTableWord 8 1 = some .write := by decide

/-! ## One operation on a small state -/

/-- V1. -/
theorem test_sym1_std : (after (exec .sym1Std (ready .std))).trace = one := by decide
/-- V2, and the pin and ticks after it. -/
theorem test_sym0_std : (after (exec .sym0Std (ready .std))).trace = zero
    ∧ (after (exec .sym0Std (ready .std))).pin = false
    ∧ (after (exec .sym0Std (ready .std))).tickno = 3 := by decide
/-- V3. -/
theorem test_sym1_deg : (after (exec .sym1Deg (ready .deg))).trace = one := by decide
/-- The recorded alternative of V3. -/
theorem test_sym1_deg_alternative : (after (exec .sym1Deg (ready .deg .bothShift))).trace = zero := by decide
/-- V4. -/
theorem test_sym0_deg : (after (exec .sym0Deg (ready .deg))).trace = short := by decide
/-- The waveforms of V1 to V4. -/
theorem test_symbol_waves : waveform [.w, .h, .w, .w, .l] false = [.one, .one, .zero]
    ∧ waveform [.w, .h, .w, .l, .w] false = [.one, .zero, .zero]
    ∧ waveform [.w, .h, .l, .w, .w] false = [.p, .zero, .zero] := by decide
/-- V14. -/
theorem test_byte_std : (after (exec (.byte 0xA5) (ready .std))).trace
    = one ++ zero ++ one ++ zero ++ zero ++ one ++ zero ++ one := by decide +kernel
/-- V19. -/
theorem test_byte_deg : (after (exec (.byte 0x80) (ready .deg))).trace
    = one ++ short ++ short ++ short ++ short ++ short ++ short ++ short := by decide +kernel
/-- V32: pure red comes second on the wire. -/
theorem test_color : (after (exec (.color ⟨0xFF, 0, 0⟩) (ready .std))).trace
    = (List.replicate 8 zero).flatten ++ (List.replicate 8 one).flatten ++ (List.replicate 8 zero).flatten := by
  decide +kernel
/-- V33: the blue bit 0 comes last. -/
theorem test_color_last_bit : (after (exec (.color ⟨0, 0, 1⟩) (ready .std))).trace
    = (List.replicate 23 zero).flatten ++ one := by decide +kernel
/-- R105, with a gap of three ticks. -/
theorem test_gap : (after (exec .gap (ready .std))).trace = [T, T, T]
    ∧ (after (exec .gap (ready .std))).pin = false := by decide
/-- R104. -/
theorem test_end : (after (exec .endSeq (ready .std))).trace = [T, T, T, .done .ok]
    ∧ (after (exec .endSeq (ready .std))).seq = .idle := by decide
/-- V40: the empty write in the build this hardware takes, right after reset. -/
theorem test_write_empty : (after (exec .write State.reset)).tickno = 900
    ∧ (after (exec .write State.reset)).trace.take 4 = [.new, L, .start, .fetched none]
    ∧ (after (exec .write State.reset)).seq = .idle := by decide +kernel
/-- V42, with the gap cut to three ticks: the low time at `done` is the gap and one tick. -/
theorem test_write_color : (after (exec .write (withColor .std))).tickno = 72 + 3
    ∧ ticksSinceLow (after (exec .write (withColor .std))).trace = 3 + 1
    ∧ (after (exec .write (withColor .std))).col = c123456 := by decide +kernel
/-- R71's example. -/
theorem test_w : (after (exec .w (after (exec .w { ready .std with tickno := 5 })))).tickno = 7
    ∧ (after (exec .w (after (exec .w { ready .std with tickno := 5 })))).trace = [T, T] := by decide
/-- R72's example, and R72 on a high pin. -/
theorem test_h : (after (exec .h (ready .std))).pin = true
    ∧ (after (exec .h { ready .std with pin := true })).trace = [H] := by decide
/-- R73's example. -/
theorem test_l : (after (exec .l { ready .std with pin := true })).pin = false
    ∧ (after (exec .l { ready .std with pin := true })).trace = [L] := by decide
/-- R74's example: the second fetch finds the end and leaves `col`. -/
theorem test_f : (after (exec .f (after (exec .f { ready .std with
      source := ⟨[0x0010203#25], .ends⟩ })))).col = ⟨1, 2, 3⟩
    ∧ (after (exec .f (after (exec .f { ready .std with source := ⟨[0x0010203#25], .ends⟩ })))).trace
      = [.fetched (some ⟨1, 2, 3⟩), .fetched none] := by decide
/-- V53. -/
theorem test_new : (after (exec .new State.unbound)).trace = [.new, L]
    ∧ (after (exec .new State.unbound)).seq = .idle := by decide

/-! ## Refusals, faults, builds -/

/-- V50. -/
theorem test_start_mid_frame : refusal (step { ready .std with seq := .sym 1 4 2, stim := [.start] })
    = some .startNotIdle := by decide
/-- V51. -/
theorem test_start_idle : (after (step { ready .std with stim := [.start] })).seq = .fetch := by decide
/-- V52. -/
theorem test_new_twice : refusal (exec .new State.reset) = some .newNotUnbound := by decide
/-- V54. -/
theorem test_start_unbound : refusal (exec .write State.unbound) = some .startNotIdle := by decide
/-- V55, one symbol: `H` and `L` are performed, and no level is claimed while the pin fails. -/
theorem test_pin_failure : (after (exec .h { ready .std with env := ⟨⟨[], false⟩, ⟨[], true⟩, ⟨[], false⟩⟩ })).trace = [H]
    ∧ (after (exec .h { ready .std with env := ⟨⟨[], false⟩, ⟨[], true⟩, ⟨[], false⟩⟩ })).pinHeld = false := by
  decide
/-- V56, with the second wait of three failing: three waits are performed and `done` comes. -/
theorem test_wait_failure :
    (after (exec .endSeq { ready .std with env := ⟨⟨[false, true], false⟩, ⟨[], false⟩, ⟨[], false⟩⟩ })).trace
      = [T, .tick true, T, .done .ok] := by decide
/-- V57: a degraded table equal to the standard one. -/
theorem test_table_v57 : degTableOf 0x0C8 0x0C2 = none := by decide
/-- V58: two symbols that cannot be told apart. -/
theorem test_table_v58 : degTableOf 0x0C8 0x0C8 = none := by decide
/-- V59: the recorded alternative; and the default. -/
theorem test_table_v59 : degTableOf 0x0E0 0x0C8 = some .bothShift
    ∧ degTableOf 0x0E0 0x0C2 = some .zeroShifts := by decide
/-- R59 (c): a table with the reserved code. -/
theorem test_table_reserved : refusal (build (asks .deg (deg0 := 0x0E1))) = some .tableRefused := by decide
theorem test_build_strict : refusal (build (asks .std (strictFaults := true))) = some .strictFaultsNotOffered := by
  decide
theorem test_build_no_gap : refusal (build (asks .std (gapTicks := 0))) = some .gapTicksZero := by decide
theorem test_build_range : refusal (build { asks .std with bits := 9 }) = some .parameterOutOfRange
    ∧ refusal (build { asks .std with symTicks := 4 }) = some .parameterOutOfRange := by decide

/-! ## The parameters of R5 at other values -/

/-- Bits 3 down to 0 of `0xA5`, which are 0101. -/
theorem test_byte_narrow : (after (exec (.byte 0xA5) { ready .std with cfg := narrow })).trace
    = zero ++ one ++ zero ++ one := by decide +kernel
/-- Blue `0x56` before red `0x12`, four bits each: 0110, then 0010. -/
theorem test_color_narrow : (after (exec (.color c123456) { ready .std with cfg := narrow })).trace
    = zero ++ one ++ one ++ zero ++ zero ++ zero ++ one ++ zero := by decide +kernel
/-- The sequencer begins a channel at its bit 3 and ends a color after its second channel. -/
theorem test_seq_narrow : channelStart narrow 0 = .sym 0 3 0 ∧ nextSeq narrow 0 0 4 = .sym 1 3 0
    ∧ nextSeq narrow 1 0 4 = .fetch := by decide
/-- No claim about real time after a failed wait (R123). -/
theorem test_timer_failed : timerSound (after (exec .w
    { ready .std with env := ⟨⟨[true], false⟩, ⟨[], false⟩, ⟨[], false⟩⟩ })) = false
    ∧ timerSound (after (exec .w (ready .std))) = true := by decide
/-- A platform's own latencies. -/
theorem test_latency : latencyNs { narrow with toggleLatency := some ⟨50, 60, 70, by norm_num⟩ } .fall = 60 := rfl

/-! ## The receiver, scripts -/

/-- V71. -/
theorem test_receive_deg : receive (frameTrace (tiny .deg) [c123456]) = [c123456] := by decide +kernel
/-- V75. -/
theorem test_receive_alternative : receive (frameTrace (tiny .deg .bothShift) [c123456]) = [⟨0, 0, 0⟩] := by
  decide +kernel
/-- V74. -/
theorem test_receive_empty : receive (frameTrace (tiny .std) []) = [] := by decide
/-- P3: the items of its script and what the host does. -/
theorem test_script_p3 : (Script.load ⟨.std, [.new, .write [⟨0xFF, 0, 0⟩, ⟨0, 0, 1⟩]]⟩).source.words
      = [0x0FF0000#25, 0x0000001#25, 0x1000000#25]
    ∧ (Script.load ⟨.std, [.new, .write [⟨0xFF, 0, 0⟩, ⟨0, 0, 1⟩]]⟩).stim = [.new, .start, .awaitDone] := by
  decide
/-- R61: `sym 0` in `DEG` is `SYM0.DEG` alone. -/
theorem test_script_sym : (after (step (Script.load ⟨.deg, [.sym false]⟩))).trace = short := by decide
theorem test_fetch_word : (after (step (State.reset.withFetchWord 8 0b11))).pin = true := by decide

/-! ## Witnesses: for each statement with hypotheses, a state and operands that meet them together -/

theorem wit_DecodeOfEncodeIsSelf : Instr.wf (.color c123456) = true := rfl
theorem wit_WordsHaveOneMeaning : decode .item 0x1FFFFFF = .ok .endSeq ∧ decode .item 0x0FFFFFF
    = .ok (.color ⟨0xFF, 0xFF, 0xFF⟩) := ⟨rfl, rfl⟩
theorem wit_ScheduleWordsRoundTrip : decodeSchedule 0x0E0 = some ⟨.w, .h, .l, .w, .w⟩ := by decide
theorem wit_TickWaitResult : State.reset.env = .never := rfl
theorem wit_DriveHighResult : State.reset.env = .never
    ∧ (symtab .zeroShifts .std true).op 1 = .h := ⟨rfl, rfl⟩
theorem wit_DriveLowResult : State.reset.env = .never ∧ State.unbound.seq = .unbound := ⟨rfl, rfl⟩
theorem wit_FetchResult_words : (withColor .std).source.words = 0x0123456#25 :: [0x1000000#25] := rfl
/-- The two words at the boundary between a color and the end mark. -/
theorem wit_FetchResult_boundary : ¬ 2 ^ 24 ≤ (0x0FFFFFF#25).toNat ∧ 2 ^ 24 ≤ (0x1000000#25).toNat := by decide
theorem wit_FetchResult_ends : State.reset.source = ⟨[], .ends⟩ := rfl
theorem wit_FetchResult_endless : ({ ready .std with source := ⟨[], .endless 0⟩ } : State).source
    = ⟨[], .endless 0⟩ := rfl
theorem wit_DegradedSymbolsResult : (ready .deg).cfg.degTable = .zeroShifts
    ∧ (ready .deg .bothShift).cfg.degTable = .bothShift := ⟨rfl, rfl⟩
theorem wit_ByteResult : (ready .deg).cfg.bits = 8 := rfl
theorem wit_OtherParametersResult : ({ ready .std with cfg := narrow, seq := .sym 0 3 0 } : State).stim = []
    ∧ ({ ready .std with cfg := narrow, seq := .sym 0 3 0 } : State).col = ⟨0, 0, 0⟩
    ∧ ({ ready .std with cfg := narrow, seq := .sym 0 3 0 } : State).seq = channelStart narrow 0 := by decide
theorem wit_ColorResult_format : (ready .deg).cfg.wireFormat := by decide
theorem wit_ColorResult : ({ ready .std with seq := .sym 0 7 0, col := c123456 } : State).stim = []
    ∧ ({ ready .std with seq := .sym 0 7 0, col := c123456 } : State).col = c123456
    ∧ ({ ready .std with seq := .sym 0 7 0, col := c123456 } : State).seq = .sym 0 7 0 := ⟨rfl, rfl, rfl⟩
/-- Both ends of the range of end items, and the words beside it. -/
theorem wit_EndResult_words : decode .item (2 ^ 24) = .ok .endSeq ∧ decode .item (2 ^ 25 - 1) = .ok .endSeq
    ∧ decode .item (2 ^ 24 - 1) = .ok (.color ⟨0xFF, 0xFF, 0xFF⟩) ∧ decode .item (2 ^ 25) = .error .tooWide :=
  ⟨rfl, rfl, rfl, rfl⟩
theorem wit_EndResult_write : State.reset.seq = .idle ∧ State.reset.env = .never
    ∧ colorsOf State.reset.source.tail State.reset.source.words = some [] := ⟨rfl, rfl, rfl⟩
theorem wit_ExactlyTwoDegradedTables : degAdmissible ⟨.w, .h, .l, .w, .w⟩ ⟨.w, .h, .w, .w, .l⟩ = true
    ∧ degAdmissible ⟨.w, .h, .l, .w, .w⟩ ⟨.w, .h, .w, .l, .w⟩ = true
    ∧ degTableOf 0x0E0 0x0C2 = some .zeroShifts := by decide
theorem wit_ConstructionResult : State.unbound.seq = .unbound ∧ State.unbound.env = .never := ⟨rfl, rfl⟩
theorem wit_WriteResult : (withColor .deg).seq = .idle ∧ (withColor .deg).env = .never
    ∧ colorsOf (withColor .deg).source.tail (withColor .deg).source.words = some [c123456] := by decide
theorem wit_WriteResult_empty : State.reset.seq = .idle
    ∧ colorsOf State.reset.source.tail State.reset.source.words = some [] := by decide
theorem wit_TransactionCounts : (tiny .deg).wireFormat ∧ 24 ≤ (tiny .deg).colorBitCount * [c123456].length
    ∧ 0 ≤ (tiny .deg).colorBitCount * ([] : List Color).length := by decide
theorem wit_LowTimeAtDone : (tiny .deg).wireFormat
    ∧ (colorBits (tiny .deg) c123456).getLast? = some false := by decide
theorem wit_StepFunctionAgreesWithWrite : ({ withColor .std with stim := [.start] } : State).seq = .idle
    ∧ ({ withColor .std with stim := [.start] } : State).stim = [.start]
    ∧ colorsOf oneColor.tail oneColor.words = some [c123456] := by decide
/-- Two states alike in the build and the sequence only. -/
theorem wit_SameSequenceSameTrace :
    ({ withColor .std with col := ⟨9, 9, 9⟩, tickno := 7 } : State).seq = .idle
    ∧ (withColor .std).cfg = ({ withColor .std with col := ⟨9, 9, 9⟩, tickno := 7 } : State).cfg
    ∧ colorsOf (withColor .std).source.tail (withColor .std).source.words = some [c123456]
    ∧ (withColor .std).env = .never := by decide
theorem wit_RequestsWithoutStep_start : ({ inSymbol with stim := [.start] } : State).seq ≠ .idle
    ∧ State.unbound.seq ≠ .idle := by decide
theorem wit_RequestsWithoutStep_new : ({ ready .std with stim := [.new] } : State).seq ≠ .unbound := by decide
theorem wit_RequestsWithoutStep_forbidden : ({ inSymbol with stim := [.forbidden .cancel] } : State).stim
    = .forbidden .cancel :: [] := rfl
theorem wit_ReceiverReadsBackTheSequence_std :
    ((T :: frameTrace (tiny .std) [c123456]).tail).map unmark = frameTrace (tiny .std) [c123456]
    ∧ (tiny .std).variant = .std := by decide +kernel
theorem wit_ReceiverReadsBackTheSequence_both :
    (frameTrace (tiny .deg .bothShift) [c123456]).map unmark = frameTrace (tiny .deg .bothShift) [c123456]
    ∧ (tiny .deg .bothShift).variant = .deg ∧ (tiny .deg .bothShift).degTable = .bothShift := by decide +kernel
theorem wit_FrameWaveform : (tiny .deg).wireFormat := by decide
/-- Both ends of the range of `j`. -/
theorem wit_WireBitOrder : Config.standard.wireFormat
    ∧ (colorBits Config.standard c123456)[0]? = some ((w24 c123456).getLsbD 23)
    ∧ (colorBits Config.standard c123456)[23]? = some ((w24 c123456).getLsbD 0) := by decide
theorem wit_SequencerRunsTheSelectedOperation_sym : inSymbol.stim = [] ∧ inSymbol.seq = .sym 0 7 1
    ∧ symBit inSymbol.cfg inSymbol.col 0 7 = some false := ⟨rfl, rfl, rfl⟩
/-- A bit and a channel that a narrower build does not have, and the last ones it has. -/
theorem wit_SequencerRunsTheSelectedOperation_none : symBit narrow c123456 0 4 = none
    ∧ symBit narrow c123456 2 0 = none ∧ symBit narrow c123456 1 3 = some false
    ∧ ({ ready .std with cfg := narrow, seq := .sym 2 0 0 } : State).seq = .sym 2 0 0 := by decide
theorem wit_SequencerRunsTheSelectedOperation_format : (ready .deg).cfg.wireFormat := by decide
/-- The last micro-operation of a symbol, of a channel and of a color lead on as R106 says. -/
theorem wit_SequencerRunsTheSelectedOperation_ends : nextSeq Config.standard 0 7 4 = .sym 0 6 0
    ∧ nextSeq Config.standard 0 0 4 = .sym 1 7 0 ∧ nextSeq Config.standard 2 0 4 = .fetch := by decide
theorem wit_SequencerRunsTheSelectedOperation_fetch : ({ withColor .std with seq := .fetch } : State).stim = []
    ∧ ({ withColor .std with seq := .fetch } : State).seq = .fetch := ⟨rfl, rfl⟩
theorem wit_SequencerRunsTheSelectedOperation_gap : ({ ready .std with seq := .gap 2 } : State).seq = .gap (0 + 2)
    ∧ ({ ready .std with seq := .gap 1 } : State).seq = .gap 1 := ⟨rfl, rfl⟩
theorem wit_StepRunsTheDecodedOperation : ({ ready .std with stim := [.alone .channel 0xA5] } : State).stim
      = .alone .channel 0xA5 :: [] ∧ Instr.wf (.byte 0xA5) = true
    ∧ decode .channel 0xA5 = .ok (.byte 0xA5) := ⟨rfl, rfl, rfl⟩
theorem wit_StepRunsTheDecodedOperation_reject : ({ ready .std with stim := [.alone .uopCode 1] } : State).stim
      = .alone .uopCode 1 :: [] ∧ decode .uopCode 1 = .error .reservedCode := ⟨rfl, rfl⟩
theorem wit_StepRunsTheDecodedOperation_new : ({ State.unbound with stim := [.new] } : State).stim
    = .new :: [] := rfl
theorem wit_StepRunsTheDecodedOperation_start : ({ ready .std with stim := [.start] } : State).stim = .start :: []
    ∧ ({ ready .std with stim := [.start] } : State).seq = .idle := ⟨rfl, rfl⟩
theorem wit_TableWordRunsNext : decodeTableWord 8 (0b11 % 2 ^ 8) = some .h := by decide
theorem wit_NothingHappensWithoutTheHost : State.unbound.seq = .unbound ∧ State.unbound.stim = []
    ∧ State.reset.seq = .idle ∧ State.reset.stim = [] := ⟨rfl, rfl, rfl, rfl⟩
theorem wit_NothingHappensWithoutTheHost_pass : ({ ready .std with stim := [.pass] } : State).seq = .idle
    ∧ ({ ready .std with stim := [.pass] } : State).stim = .pass :: []
    ∧ ({ ready .std with stim := [.awaitDone] } : State).stim = .awaitDone :: [] := ⟨rfl, rfl, rfl⟩
theorem wit_EndlessSourceIsNeverDone :
    ({ ready .std with source := ⟨[0x0123456#25], .endless 0⟩, stim := [.start] } : State).seq = .idle
    ∧ colorsOf (.endless 0) [0x0123456#25] = none := by decide
/-- The step that ends a transaction, and the one that begins it. -/
theorem wit_DoneAndBusyTogether : hostOnly { ready .std with seq := .gap 1 } = true
    ∧ step { ready .std with seq := .gap 1 } = .next (after (step { ready .std with seq := .gap 1 }))
    ∧ hostOnly { ready .std with stim := [.start] } = true
    ∧ step { ready .std with stim := [.start] } = .next (after (step { ready .std with stim := [.start] })) :=
  ⟨rfl, rfl, rfl, rfl⟩
theorem wit_FetchOnlyInFetchState : hostOnly { withColor .std with seq := .fetch } = true
    ∧ step { withColor .std with seq := .fetch } = .next (after (step { withColor .std with seq := .fetch })) :=
  ⟨rfl, rfl⟩
/-- Two states that differ in their fault plans. -/
theorem wit_FailuresAreDiscarded :
    SameButFaults inSymbol { inSymbol with env := ⟨⟨[], true⟩, ⟨[], true⟩, ⟨[], true⟩⟩, pinHeld := false } :=
  ⟨rfl, rfl, rfl, rfl, rfl, rfl, rfl, rfl⟩
theorem wit_ConfigurationNeverChanges : step inSymbol = .next (after (step inSymbol))
    ∧ exec .h inSymbol = .next (after (exec .h inSymbol)) := ⟨rfl, rfl⟩
theorem wit_LatchWrittenByFetchOnly : Instr.h ≠ .f ∧ Instr.h ≠ .write
    ∧ exec .h inSymbol = .next (after (exec .h inSymbol))
    ∧ hostOnly inSymbol = true ∧ step inSymbol = .next (after (step inSymbol)) ∧ inSymbol.seq ≠ .fetch :=
  ⟨by decide, by decide, rfl, rfl, rfl, by decide⟩
/-- A step that raises the pin, and one that lowers it. -/
theorem wit_PinChangesByPinEventsOnly : hostOnly inSymbol = true ∧ step inSymbol = .next (after (step inSymbol))
    ∧ (after (step inSymbol)).pin ≠ inSymbol.pin
    ∧ (after (step { inSymbol with seq := .sym 0 7 3, pin := true })).pin = false :=
  ⟨rfl, rfl, by decide, by decide⟩
theorem wit_TraceOnlyGrows : step inSymbol = .next (after (step inSymbol)) := rfl
theorem wit_StepKeepsPinInvariant : Inv inSymbol ∧ step inSymbol = .next (after (step inSymbol)) := by
  refine ⟨⟨rfl, ?_, ?_, ?_, ?_, fun _ => rfl⟩, rfl⟩
  · intro b hb
    rw [show boundaryPin inSymbol = some false by decide] at hb
    cases hb
    rfl
  · intro n hn
    cases hn
  · intro ch i u h
    cases h
    decide
  · intro hn
    cases hn
theorem wit_InvariantStateAlwaysSteps : Inv inSymbol ∧ inSymbol.stim = [] :=
  ⟨wit_StepKeepsPinInvariant.1, rfl⟩
theorem wit_StepKeepsCountInvariant : CountInv inSymbol ∧ step inSymbol = .next (after (step inSymbol)) :=
  ⟨⟨rfl, le_refl _⟩, rfl⟩
theorem wit_StepKeepsFaultlessInvariant : FaultlessInv inSymbol ∧ step inSymbol = .next (after (step inSymbol)) :=
  ⟨⟨rfl, rfl, fun _ => rfl, rfl, rfl⟩, rfl⟩
theorem wit_FaultlessInvariantAtReset : FaultlessInv State.reset ∧ State.reset.seq ≠ .unbound :=
  ⟨⟨rfl, rfl, fun _ => rfl, rfl, rfl⟩, by decide⟩
theorem wit_BuildRefusesBadConfigurations : build (asks .deg (gapTicks := 1))
    = .next (State.unboundWith { variant := .deg, gapTicks := 1 }) := rfl
theorem wit_NominalDurations : State.reset.cfg = Config.standard ∧ timerSound State.reset = true := ⟨rfl, rfl⟩
theorem wit_WaitingTimes : timerSound inSymbol = true ∧ busy inSymbol = true ∧ 0 < inSymbol.tickno
    ∧ timerSound State.reset = true ∧ State.reset.cfg = Config.standard := by decide
theorem wit_FrameBeginsWithItsFirstWait : ({ withColor .std with stim := [.start] } : State).seq = .idle
    ∧ ({ withColor .std with stim := [.start] } : State).stim = [.start]
    ∧ timerSound { withColor .std with stim := [.start] } = true := ⟨rfl, rfl, rfl⟩
theorem wit_PulseWidths : ({ narrow with toggleLatency := some ⟨50, 50, 70, by norm_num⟩ } : Config).toggleLatency
      = some ⟨50, 50, 70, by norm_num⟩
    ∧ latencyNs { narrow with toggleLatency := some ⟨50, 50, 70, by norm_num⟩ } .fall
      = latencyNs { narrow with toggleLatency := some ⟨50, 50, 70, by norm_num⟩ } .rise
    ∧ ¬ (Variant.std = .deg ∧ false = false) ∧ ¬ (Variant.deg = .deg ∧ true = false) :=
  ⟨rfl, rfl, by decide, by decide⟩
/-- The 1 symbol of the alternative table has one tick in it. -/
theorem wit_PulseWidths_alternative : (symtab .bothShift .deg true).highTicks = 1
    ∧ (symtab .zeroShifts .deg true).highTicks = 2 := by decide

end Sys2Proof.Tests
end

section
/-!
The order of the wire bits (R31, R32, R34): where a wire bit stands in its channel and in `W24`.
-/
namespace Sys2Proof.Machine

/-- The bit at place `i` of `v[n - 1]` down to `v[0]`. -/
theorem bitsDown_getElem? (v : Byte) {n i : Nat} (hi : i < n) :
    (bitsDown v n)[i]? = some (v.getLsbD (n - 1 - i)) := by
  simp [bitsDown, hi]

/-- R31: a channel goes out most significant bit first. -/
theorem byteBits_getElem? (cfg : Config) (v : Byte) {i : Nat} (h : cfg.bits = 8) (hi : i < 8) :
    (byteBits cfg v)[i]? = some (v.getLsbD (7 - i)) := by
  rw [byteBits, h]
  exact bitsDown_getElem? v hi

/-- R32: wire bit `j` of a color stands in channel `j / 8` in the order green, red, blue. -/
theorem colorBits_getElem? (cfg : Config) (c : Color) {j : Nat} (h : cfg.wireFormat) (hj : j < 24) :
    (colorBits cfg c)[j]? = some (([c.g, c.r, c.b].getD (j / 8) 0).getLsbD (7 - j % 8)) := by
  have hlen : ∀ v, (byteBits cfg v).length = 8 := fun v => (byteBits_length cfg v).trans h.1
  rw [colorBits_eq cfg c h]
  obtain hk | hk | hk : j / 8 = 0 ∨ j / 8 = 1 ∨ j / 8 = 2 := by omega
  · rw [List.getElem?_append_left (by rw [hlen]; omega), byteBits_getElem? cfg c.g h.1 (by omega), hk,
      show j % 8 = j by omega]
    rfl
  · rw [List.getElem?_append_right (by rw [hlen]; omega), hlen,
      List.getElem?_append_left (by rw [hlen]; omega), byteBits_getElem? cfg c.r h.1 (by omega), hk,
      show j % 8 = j - 8 by omega]
    rfl
  · rw [List.getElem?_append_right (by rw [hlen]; omega), hlen,
      List.getElem?_append_right (by rw [hlen]; omega), hlen,
      byteBits_getElem? cfg c.b h.1 (by omega), hk, show j % 8 = j - 8 - 8 by omega]
    rfl

/-- R34: `W24` holds green in its top byte, then red, then blue. -/
theorem w24_getLsbD (c : Color) {j : Nat} (hj : j < 24) :
    (w24 c).getLsbD (23 - j) = ([c.g, c.r, c.b].getD (j / 8) 0).getLsbD (7 - j % 8) := by
  simp only [w24, BitVec.getLsbD_append]
  obtain hk | hk | hk : j / 8 = 0 ∨ j / 8 = 1 ∨ j / 8 = 2 := by omega
  · rw [if_neg (by omega), if_neg (by omega), show 23 - j - 8 - 8 = 7 - j % 8 by omega, hk]
    rfl
  · rw [if_neg (by omega), if_pos (by omega), show 23 - j - 8 = 7 - j % 8 by omega, hk]
    rfl
  · rw [if_pos (by omega), show 23 - j = 7 - j % 8 by omega, hk]
    rfl

/-- Settles O31: `COLOR` sends the symbols of the color's bits, and the wire bit and the bit of `W24` are
the same bit of the same channel. -/
theorem wireBitOrder : Obligations.WireBitOrder := by
  refine ⟨⟨rfl, rfl⟩, fun cfg c j hf hj => ⟨colorOps_eq_symbolOps cfg c, ?_, w24_getLsbD c hj⟩⟩
  rw [w24_getLsbD c hj]
  exact colorBits_getElem? cfg c hf hj

end Sys2Proof.Machine
end

section
/-!
The waveform of a transaction (R52 to R54, R107): the symbols of its colors in wire order, then the gap.
-/
namespace Sys2Proof.Machine

/-- The fetches between the colors are no micro-operations (R75). -/
theorem opsOf_colorTraces (cfg : Config) (cs : List Color) (es : List Event) :
    opsOf (cs.flatMap (colorTrace cfg) ++ es) = cs.flatMap (colorOps cfg) ++ opsOf es := by
  induction cs with
  | nil => rfl
  | cons c cs ih =>
    simp only [List.flatMap_cons, List.append_assoc, colorTrace, List.cons_append, opsOf,
      opsOf_traceOf, ih]

/-- The trace of a transaction shows `Frame(cs)` (R107). -/
theorem opsOf_frameTrace (cfg : Config) (cs : List Color) :
    opsOf (frameTrace cfg cs) = frameOps cfg cs := by
  simp only [frameTrace, frameOps, List.cons_append, List.append_assoc, opsOf, opsOf_colorTraces,
    opsOf_traceOf, List.append_nil]

/-- The gap begins with a wait, where it has any. -/
theorem gapOps_begins (cfg : Config) : gapOps cfg = [] ∨ ∃ us, gapOps cfg = .w :: us := by
  unfold gapOps
  cases cfg.gapTicks with
  | zero => exact .inl rfl
  | succ n => exact .inr ⟨_, rfl⟩

/-- The waveform of `Frame(cs)` in every build: that of its bits' symbols, then the gap low (R54). -/
theorem waveform_frameOps (cfg : Config) (cs : List Color) :
    waveform (frameOps cfg cs) false
      = (cs.flatMap (colorBits cfg)).flatMap (fun b => symbolWave (scheduleOf cfg b))
        ++ List.replicate cfg.gapTicks .zero := by
  rw [frameOps, flatMap_colorOps, waveform_symbols cfg _ _ (gapOps_begins cfg), gapOps, waveform_waits]

/-- Every symbol has three characters (R51). -/
theorem symbolWave_length (cfg : Config) (b : Bool) : (symbolWave (scheduleOf cfg b)).length = 3 := by
  unfold scheduleOf
  generalize cfg.degTable = d
  generalize cfg.variant = v
  cases d <;> cases v <;> cases b <;> rfl

/-- A transaction's waveform has three characters for each bit and one for each tick of the gap. -/
theorem waveform_frameOps_length (cfg : Config) (cs : List Color) :
    (waveform (frameOps cfg cs) false).length = 3 * cfg.colorBitCount * cs.length + cfg.gapTicks := by
  rw [waveform_frameOps, List.length_append, List.length_replicate, List.length_flatMap]
  simp only [symbolWave_length, List.map_const', List.sum_replicate, flatMap_colorBits_length, smul_eq_mul]
  ring

/-- The bits of a color are those of green, red and blue in the wire format of this hardware (R32). -/
theorem colorBits_eq_flatMap (cfg : Config) (c : Color) (h : cfg.wireFormat) :
    colorBits cfg c = [c.g, c.r, c.b].flatMap (byteBits cfg) := by
  simp [colorBits_eq cfg c h]

/-- Settles O30: the trace shows `Frame(cs)`, whose waveform is that of the symbols of the colors' bits and
then the gap; 24 bits a color give the length. -/
theorem frameWaveform : Obligations.FrameWaveform := by
  refine ⟨fun cfg cs hf => ?_, ⟨rfl, rfl⟩, rfl⟩
  rw [opsOf_frameTrace]
  refine ⟨rfl, ?_, ?_⟩
  · rw [waveform_frameOps]
    simp only [colorBits_eq_flatMap cfg _ hf, List.flatMap_assoc]
  · rw [waveform_frameOps_length, (wireFormat_counts cfg hf).1]

end Sys2Proof.Machine
end

section
/-!
The Bit Encoder's standard symbols and `BYTE` (R82, R83, R86): lists of symbols performed, counted and drawn.
-/
namespace Sys2Proof.Machine

open Sys2Proof.Safety

/-- A symbol of either variant in every state: its schedule, three ticks, the pin left low, nothing else
changed (R82 to R85). -/
theorem sendSymbol_result (v : Variant) (b : Bool) (s : State) :
    Performed (symtab s.cfg.degTable v b).toList s (sendSymbol v b s)
    ∧ (sendSymbol v b s).pin = false ∧ (sendSymbol v b s).tickno = s.tickno + 3 := by
  obtain ⟨hw, -, -, -, hlow⟩ := symtab_counts s.cfg.degTable v b
  have h : Performed _ s (sendSymbol v b s) := perform_performed _ s
  exact ⟨h, h.pin.trans (hlow s.pin), by rw [h.tickno, hw]⟩

/-- Settles O10: `SYMTAB[STD]` does not depend on the degraded table, so the result of any symbol is that
of the schedule written out; the words and waveforms are the table's own. -/
theorem standardSymbolsResult : Obligations.StandardSymbolsResult := by
  refine ⟨fun s => ⟨_, rfl, sendSymbol_result .std true s⟩,
    fun s => ⟨_, rfl, sendSymbol_result .std false s⟩, ?_⟩
  decide

/-- The counts of `Byte(v)`, and that it leaves the pin low (R86). -/
theorem byteOps_counts (cfg : Config) (v : Byte) :
    (byteOps cfg v).count .w = 3 * cfg.bits ∧ (byteOps cfg v).count .h = cfg.bits
    ∧ (byteOps cfg v).count .l = cfg.bits ∧ (byteOps cfg v).length = 5 * cfg.bits
    ∧ ∀ p, levelAfter (byteOps cfg v) p = false := by
  obtain ⟨hw, hh, hl, hlen, hlow⟩ := symbolOps_counts cfg (byteBits cfg v)
  have hne : byteBits cfg v ≠ [] :=
    List.ne_nil_of_length_pos (by rw [byteBits_length]; exact cfg.bits_range.1)
  rw [byteBits_length] at hw hh hl hlen
  exact ⟨hw, hh, hl, hlen, hlow hne⟩

/-- `BYTE v` in every state and every build: `Byte(v)`, three ticks for each bit, the pin left low, nothing
else changed (R86). -/
theorem sendByte_result (v : Byte) (s : State) :
    Performed (byteOps s.cfg v) s (sendByte v s)
    ∧ (sendByte v s).pin = false ∧ (sendByte v s).tickno = s.tickno + 3 * s.cfg.bits := by
  obtain ⟨hw, -, -, -, hlow⟩ := byteOps_counts s.cfg v
  have h : Performed _ s (sendByte v s) := perform_performed _ s
  exact ⟨h, h.pin.trans (hlow s.pin), by rw [h.tickno, hw]⟩

/-- The bits of a byte where `BITS` is 8, by arithmetic (R31, R88). -/
theorem byteBits_eq_map (cfg : Config) (v : Byte) (h : cfg.bits = 8) : byteBits cfg v
    = [7, 6, 5, 4, 3, 2, 1, 0].map (fun i : Nat => decide (v.toNat / 2 ^ i % 2 = 1)) := by
  simp only [byteBits_eq cfg v h, BitVec.getLsbD, Nat.testBit_eq_decide_div_mod_eq, List.map_cons,
    List.map_nil]

/-- The waveform of `Byte(v)` is that of the symbols of its bits (R52). -/
theorem waveform_byteOps (cfg : Config) (v : Byte) : waveform (byteOps cfg v) false
    = (byteBits cfg v).flatMap (fun b => symbolWave (scheduleOf cfg b)) := by
  simpa [byteOps, waveform, waveformFrom] using waveform_symbols cfg (byteBits cfg v) [] (.inl rfl)

/-- A byte's waveform has three characters for each bit (R52). -/
theorem waveform_byteOps_length (cfg : Config) (v : Byte) :
    (waveform (byteOps cfg v) false).length = 3 * cfg.bits := by
  simp only [waveform_byteOps, List.length_flatMap, symbolWave_length, List.map_const',
    List.sum_replicate, byteBits_length, smul_eq_mul, Nat.mul_comm]

/-- Settles O12: `BYTE v` performs `Byte(v)`, whose counts and waveform in every build become the figures of
R86 and R52 where `BITS` is 8, and whose bits are then those that arithmetic selects. -/
theorem byteResult : Obligations.ByteResult := by
  intro v s h8
  obtain ⟨hperf, hpin, htick⟩ := sendByte_result v s
  obtain ⟨hw, hh, hl, hlen, -⟩ := byteOps_counts s.cfg v
  have hwave := waveform_byteOps_length s.cfg v
  rw [h8] at htick hlen hw hh hl hwave
  refine ⟨byteOps s.cfg v, sendByte v s, ?_, rfl, hperf, hlen, hw, hh, hl, hpin, htick, ?_, hwave⟩
  · rw [byteOps, byteBits_eq_map s.cfg v h8, symbolOps, List.flatMap_map]
    rfl
  · rw [waveform_byteOps, byteBits_eq_map s.cfg v h8, List.flatMap_map]
    rfl

end Sys2Proof.Machine
end

section
/-!
The Frame Driver's item operations (R103, R104): `COLOR` as its three bytes and in the sequencer's run, `END`
alone and in the empty write.
-/
namespace Sys2Proof.Machine

open Sys2Proof.Safety

/-! The operation of an item word (R56, R58). -/

/-- The item word decides between `END` and `COLOR` by what it reads as. -/
theorem decode_item (w : ItemWord) : decode .item w.toNat = .ok ((decodeItem w).elim .endSeq .color) := by
  have hfits : ¬ 2 ^ Place.item.width ≤ w.toNat := Nat.not_le.2 w.isLt
  rw [decode, if_neg hfits, BitVec.ofNat_toNat, BitVec.setWidth_eq]
  cases decodeItem w <;> rfl

/-! `COLOR` in the wire format of this hardware (R103). -/

/-- `COLOR c` is `BYTE` of green, then of red, then of blue. -/
theorem sendColor_eq_sendBytes (c : Color) (s : State) (h : s.cfg.wireFormat) :
    sendColor c s = sendByte c.b (sendByte c.r (sendByte c.g s)) := by
  simp only [sendColor, h.2, List.foldl_cons, List.foldl_nil, Color.channel]

/-- `Color(c) = Byte(c.g) ++ Byte(c.r) ++ Byte(c.b)` (R107). -/
theorem colorOps_eq_byteOps (cfg : Config) (c : Color) (h : cfg.wireFormat) :
    colorOps cfg c = byteOps cfg c.g ++ byteOps cfg c.r ++ byteOps cfg c.b := by
  rw [colorOps_eq_symbolOps, colorBits_eq cfg c h, symbolOps_append, symbolOps_append, ← List.append_assoc]
  rfl

/-- The waveform of `Color(c)` is that of the symbols of its bits (R52). -/
theorem waveform_colorOps (cfg : Config) (c : Color) : waveform (colorOps cfg c) false
    = (colorBits cfg c).flatMap (fun b => symbolWave (scheduleOf cfg b)) := by
  rw [colorOps_eq_symbolOps]
  simpa [waveform, waveformFrom] using waveform_symbols cfg (colorBits cfg c) [] (.inl rfl)

/-- The waveform of a color is that of its bytes joined (R52). -/
theorem waveform_colorOps_eq_byteOps (cfg : Config) (c : Color) (h : cfg.wireFormat) :
    waveform (colorOps cfg c) false = waveform (byteOps cfg c.g) false ++ waveform (byteOps cfg c.r) false
      ++ waveform (byteOps cfg c.b) false := by
  simp only [waveform_colorOps, waveform_byteOps, colorBits_eq cfg c h, List.flatMap_append,
    List.append_assoc]

/-- `COLOR c` in every state and every build: `Color(c)`, its ticks, the pin left low, nothing else changed. -/
theorem sendColor_result (c : Color) (s : State) :
    Performed (colorOps s.cfg c) s (sendColor c s)
    ∧ (sendColor c s).pin = false ∧ (sendColor c s).tickno = s.tickno + s.cfg.colorTicks := by
  obtain ⟨hw, -, -, -, hlow⟩ := colorOps_counts s.cfg c
  have h : Performed (colorOps s.cfg c) s (sendColor c s) := by
    rw [sendColor_eq]
    exact perform_performed _ s
  exact ⟨h, h.pin.trans (hlow s.pin), by rw [h.tickno, hw]⟩

/-- A channel begins at its bit 7 where `BITS` is 8 (R106). -/
theorem channelStart_of_bits (cfg : Config) (ch : Fin 3) (h : cfg.bits = 8) :
    channelStart cfg ch = .sym ch 7 0 := by
  simp only [channelStart, h]
  rfl

/-- From the first micro-operation of the latched color, 120 steps send it and come back to `FETCH` (R106). -/
theorem run_color_wireFormat (s : State) (hf : s.cfg.wireFormat) (h : Waiting s) (hq : s.seq = .sym 0 7 0) :
    Host.Core.run core 120 s = .next { sendColor s.col s with seq := .fetch } := by
  obtain ⟨hbits, -, hops⟩ := wireFormat_counts s.cfg hf
  have hr := run_color s h
  rw [hops, hbits, channelStart_of_bits s.cfg 0 hf.1, ← hq] at hr
  exact hr

/-- Settles O13: `COLOR` performs `Color(c)`, whose counts in every build become the figures of R103 in the
wire format of this hardware; its word and its steps are those of the latched color. -/
theorem colorResult : Obligations.ColorResult := by
  intro c s hf
  obtain ⟨hperf, hpin, htick⟩ := sendColor_result c s
  obtain ⟨hw, -, -, hlen, -⟩ := colorOps_counts s.cfg c
  obtain ⟨hbits, hticks, hops⟩ := wireFormat_counts s.cfg hf
  rw [hticks] at hw htick
  rw [hops, hbits] at hlen
  refine ⟨colorOps s.cfg c, sendByte c.g s, sendByte c.r (sendByte c.g s), sendColor c s, rfl, rfl, ?_, rfl,
    hperf, colorOps_eq_byteOps s.cfg c hf, hlen, hw, hpin, htick, waveform_colorOps_eq_byteOps s.cfg c hf,
    ?_, ?_⟩
  · rw [sendColor_eq_sendBytes c s hf]
    rfl
  · rw [← colorWord_toNat, decode_item, decodeItem_colorWord]
    rfl
  · rintro hs rfl hq
    exact run_color_wireFormat s hf (.inl hs) hq

/-! `END` and the transactions of a source that ends (R104, R102). -/

/-- `WRITE` in `IDLE` on a source that yields `cs` completes, with the fetch loop that sends `cs` (R102). -/
theorem exec_write_sent (s : State) (cs : List Color) (hq : s.seq = .idle)
    (hc : colorsOf s.source.tail s.source.words = some cs) :
    ∃ t, exec .write s = .next t ∧ Sent cs (begin s) t := by
  obtain ⟨t, ht, hsent⟩ := sendAll_sent s.source.words (begin s) cs rfl hc
  refine ⟨t, ?_, hsent⟩
  rw [exec, execWrite, if_pos hq, ht]

/-- The trace of the gap is its ticks (R105). -/
theorem traceOf_gapOps (cfg : Config) :
    traceOf (gapOps cfg) = List.replicate cfg.gapTicks (.tick false) := by
  rw [traceOf, gapOps, List.map_replicate]
  rfl

/-- Settles O21: bit 24 alone makes an item word the end mark; `END` is the gap with `done` after it; and the
empty write is the fetch loop that sends no color. -/
theorem endResult : Obligations.EndResult := by
  refine ⟨fun w hlo hhi => ?_, fun s => ⟨sendGap s, rfl, rfl⟩, fun s hq he hc => ?_, fun cfg => ?_, rfl⟩
  · have hw : (BitVec.ofNat 25 w).toNat = w := Nat.mod_eq_of_lt hhi
    have hd : decodeItem (BitVec.ofNat 25 w) = none := by rw [decodeItem_eq, hw, if_pos hlo]
    rw [← hw, decode_item, hd]
    rfl
  · obtain ⟨t, ht, hsent⟩ := exec_write_sent s [] hq hc
    obtain ⟨-, htrace, -, -⟩ := hsent.never he
    refine ⟨t, ht, hsent.seq, ?_, hsent.pin, ?_⟩
    · simpa using hsent.tickno
    · rw [htrace]
      simp [bodyTrace, traceOf_gapOps, trace_eq]
  · simpa using waveform_frameOps cfg []

end Sys2Proof.Machine
end

section
/-!
The encodings (R56 to R59): what the decoder answers at each place, and the schedule words.
-/
namespace Sys2Proof

open Sys2Proof.Machine

/-! The decoder by place. -/

/-- A word with a bit above the width of its place selects nothing. -/
theorem decode_tooWide (p : Place) (w : Nat) (h : 2 ^ p.width ≤ w) : decode p w = .error .tooWide := by
  unfold decode
  rw [if_pos h]

/-- A word that selects an operation fits its place. -/
theorem fits_of_decode_ok {p : Place} {w : Nat} {i : Instr} (h : decode p w = .ok i) :
    w < 2 ^ p.width := by
  by_contra hw
  rw [decode_tooWide p w (Nat.le_of_not_lt hw)] at h
  cases h

/-- Every byte is a channel value (R59 (a)). -/
theorem decode_channel (v : Byte) : decode .channel v.toNat = .ok (.byte v) := by
  have hfits : ¬ 2 ^ Place.channel.width ≤ v.toNat := Nat.not_le.2 v.isLt
  rw [decode, if_neg hfits, BitVec.ofNat_toNat, BitVec.setWidth_eq]

/-- The micro-operation code decides by what it reads as (R57). -/
theorem decode_uopCode (c : BitVec 2) : decode .uopCode c.toNat
    = (decodeUop c).elim (.error .reservedCode) fun u => .ok u.instr := by
  have hfits : ¬ 2 ^ Place.uopCode.width ≤ c.toNat := Nat.not_le.2 c.isLt
  rw [decode, if_neg hfits, BitVec.ofNat_toNat, BitVec.setWidth_eq]
  cases decodeUop c <;> rfl

/-- Of the gap's load values 900 alone selects it (R105). -/
theorem decode_gapCount (w : Nat) (h : w < 2 ^ Place.gapCount.width) :
    decode .gapCount w = if w = 900 then .ok .gap else .error .otherGapCount := by
  rw [decode, if_neg (Nat.not_le.2 h)]

/-- Settles O1: the operands of `COLOR` and `BYTE` come back out of their words; the other operations have
one word each. -/
theorem decodeOfEncodeIsSelf : Obligations.DecodeOfEncodeIsSelf := by
  intro i _
  cases i with
  | color c =>
    rw [encode, decode_item, decodeItem_colorWord]
    rfl
  | byte v => exact decode_channel v
  | new | write | endSeq | gap | sym1Std | sym0Std | sym1Deg | sym0Deg | w | h | l | f => rfl

/-- An item word is the word of the color it selects, or it is an end mark with any payload (R56, R59 (b)). -/
theorem encode_of_decode_item {w : ItemWord} {i : Instr} (h : decode .item w.toNat = .ok i) :
    encode i = (.item, w.toNat) ∨ (i = .endSeq ∧ 2 ^ 24 ≤ w.toNat) := by
  rw [decode_item] at h
  cases hd : decodeItem w with
  | some c =>
    rw [hd] at h
    cases h
    exact .inl (by rw [Option.elim, encode, colorWord_of_decodeItem w c hd])
  | none =>
    rw [hd] at h
    cases h
    refine .inr ⟨rfl, ?_⟩
    rw [decodeItem_eq] at hd
    by_contra hlt
    rw [if_neg hlt] at hd
    cases hd

/-- A micro-operation's code is its only one (R57). -/
theorem encode_of_decode_uopCode {c : BitVec 2} {i : Instr} (h : decode .uopCode c.toNat = .ok i) :
    encode i = (.uopCode, c.toNat) := by
  rw [decode_uopCode] at h
  cases hd : decodeUop c with
  | none =>
    rw [hd] at h
    cases h
  | some u =>
    rw [hd] at h
    cases h
    rw [← encodeUop_of_decodeUop c u hd]
    cases u <;> rfl

/-- A strobe's word selects its operation exactly at 1 (R58). -/
theorem decodeStrobe_ok_iff (i j : Instr) (w : Nat) : decodeStrobe i w = .ok j ↔ w = 1 ∧ i = j := by
  unfold decodeStrobe
  split <;> simp_all

/-- A strobe's word selects nothing exactly off 1 (R58). -/
theorem decodeStrobe_error_iff (i : Instr) (w : Nat) : (∃ r, decodeStrobe i w = .error r) ↔ w ≠ 1 := by
  unfold decodeStrobe
  split <;> simp_all

/-- A word in the width of a place is a bit vector of that width. -/
theorem exists_bitVec {n w : Nat} (h : w < 2 ^ n) : ∃ x : BitVec n, x.toNat = w :=
  ⟨BitVec.ofNat n w, Nat.mod_eq_of_lt h⟩

/-- Settles O2: place by place, the word is the one the encoder gives. -/
theorem wordsHaveOneMeaning : Obligations.WordsHaveOneMeaning := by
  intro p w i h
  have hw := fits_of_decode_ok h
  refine ⟨hw, ?_⟩
  cases p with
  | newStrobe | startStrobe | fetchStrobe =>
    rw [decode, if_neg (Nat.not_le.2 hw)] at h
    obtain ⟨rfl, rfl⟩ := (decodeStrobe_ok_iff _ _ _).1 h
    exact .inl rfl
  | item =>
    obtain ⟨x, rfl⟩ : ∃ x : ItemWord, x.toNat = w := exists_bitVec hw
    exact (encode_of_decode_item h).imp_right fun ⟨hi, hx⟩ => ⟨hi, rfl, hx⟩
  | gapCount =>
    rw [decode_gapCount w hw] at h
    split at h
    · next h900 =>
      cases h
      exact .inl (by rw [h900]; rfl)
    · cases h
  | channel =>
    obtain ⟨x, rfl⟩ : ∃ x : Byte, x.toNat = w := exists_bitVec hw
    rw [decode_channel] at h
    cases h
    exact .inl rfl
  | symBit v =>
    have hw' : w < 2 := hw
    cases v <;> interval_cases w <;> cases h <;> exact .inl rfl
  | uopCode =>
    obtain ⟨x, rfl⟩ : ∃ x : BitVec 2, x.toNat = w := exists_bitVec hw
    exact .inl (encode_of_decode_uopCode h)

/-- Settles O3: a word too wide is refused everywhere; in its width each place refuses what its reading of
the word leaves out. -/
theorem rejectedWordsExactly : Obligations.RejectedWordsExactly := by
  intro p w
  by_cases hw : 2 ^ p.width ≤ w
  · exact iff_of_true ⟨_, decode_tooWide p w hw⟩ (.inl hw)
  · have hlt := Nat.lt_of_not_le hw
    simp only [hw, false_or]
    cases p with
    | newStrobe | startStrobe | fetchStrobe =>
      have hw' : w < 2 := hlt
      rw [decode, if_neg hw, decodeStrobe_error_iff]
      simp
      omega
    | item =>
      obtain ⟨x, rfl⟩ : ∃ x : ItemWord, x.toNat = w := exists_bitVec hlt
      simp [decode_item]
    | gapCount =>
      rw [decode_gapCount w hlt]
      by_cases h900 : w = 900 <;> simp [h900]
    | channel =>
      obtain ⟨x, rfl⟩ : ∃ x : Byte, x.toNat = w := exists_bitVec hlt
      simp [decode_channel]
    | symBit v =>
      have hw' : w < 2 := hlt
      cases v <;> interval_cases w <;> simp [decode, Place.width]
    | uopCode =>
      have hw' : w < 4 := hlt
      interval_cases w <;> simp [decode, Place.width, decodeUop]

/-- Settles O4: each word of the table read at its place. -/
theorem tableWordsDecode : Obligations.TableWordsDecode :=
  ⟨rfl, rfl, rfl, rfl, rfl, rfl, rfl, rfl, rfl, rfl, rfl, rfl, rfl, rfl, rfl⟩

/-! Schedule words (R57). -/

/-- A schedule word is its five codes, the first on top. -/
theorem append_codes_scheduleWord (w : ScheduleWord) : (w.extractLsb' 8 2 ++ w.extractLsb' 6 2
    ++ w.extractLsb' 4 2 ++ w.extractLsb' 2 2 ++ w.extractLsb' 0 2 : BitVec 10) = w := by
  rw [BitVec.extractLsb'_append_extractLsb'_eq_extractLsb' (show 8 = 6 + 2 from rfl),
    BitVec.extractLsb'_append_extractLsb'_eq_extractLsb' (show 6 = 4 + 2 from rfl),
    BitVec.extractLsb'_append_extractLsb'_eq_extractLsb' (show 4 = 2 + 2 from rfl),
    BitVec.extractLsb'_append_extractLsb'_eq_extractLsb' (show 2 = 0 + 2 from rfl)]
  exact BitVec.extractLsb'_eq_self

/-- The codes of five codes joined. -/
theorem codes_of_append (a b c d e : BitVec 2) :
    (a ++ b ++ c ++ d ++ e : BitVec 10).extractLsb' 8 2 = a
    ∧ (a ++ b ++ c ++ d ++ e : BitVec 10).extractLsb' 6 2 = b
    ∧ (a ++ b ++ c ++ d ++ e : BitVec 10).extractLsb' 4 2 = c
    ∧ (a ++ b ++ c ++ d ++ e : BitVec 10).extractLsb' 2 2 = d
    ∧ (a ++ b ++ c ++ d ++ e : BitVec 10).extractLsb' 0 2 = e := by
  simp (disch := decide) only [BitVec.extractLsb'_append_eq_of_le, BitVec.extractLsb'_append_eq_right,
    Nat.reduceSub, BitVec.extractLsb'_eq_self, and_self]

theorem decodeSchedule_encodeSchedule (s : Schedule) : decodeSchedule (encodeSchedule s) = some s := by
  obtain ⟨h0, h1, h2, h3, h4⟩ := codes_of_append (encodeUop s.u0) (encodeUop s.u1) (encodeUop s.u2)
    (encodeUop s.u3) (encodeUop s.u4)
  unfold decodeSchedule encodeSchedule
  simp only [h0, h1, h2, h3, h4, decodeUop_encodeUop]

theorem encodeSchedule_of_decodeSchedule (w : ScheduleWord) (s : Schedule)
    (h : decodeSchedule w = some s) : encodeSchedule s = w := by
  unfold decodeSchedule at h
  split at h
  · next a b c d e h0 h1 h2 h3 h4 =>
    cases h
    rw [encodeSchedule, encodeUop_of_decodeUop _ _ h0, encodeUop_of_decodeUop _ _ h1,
      encodeUop_of_decodeUop _ _ h2, encodeUop_of_decodeUop _ _ h3, encodeUop_of_decodeUop _ _ h4]
    exact append_codes_scheduleWord w
  · cases h

/-- Settles O5: both directions go code by code. -/
theorem scheduleWordsRoundTrip : Obligations.ScheduleWordsRoundTrip :=
  ⟨decodeSchedule_encodeSchedule, encodeSchedule_of_decodeSchedule⟩

end Sys2Proof
end

section
/-!
The reference receiver (R62): what it reads of a transaction in each build.
-/
namespace Sys2Proof.Machine

/-- Where the two degraded symbols can be told apart, the receiver reads the bits sent. -/
theorem readAs_eq_self (cfg : Config) (h : cfg.variant = .std ∨ cfg.degTable = .zeroShifts) (b : Bool) :
    readAs cfg b = b := by
  unfold readAs
  rcases h with h | h
  · rw [h]
  · rw [h]
    cases cfg.variant <;> rfl

/-- Under the alternative degraded table the receiver reads every bit as 0 (V75). -/
theorem readAs_bothShift (cfg : Config) (hv : cfg.variant = .deg) (hd : cfg.degTable = .bothShift) (b : Bool) :
    readAs cfg b = false := by
  rw [readAs, hv, hd]

/-- What the receiver reads of a transaction, whatever waits failed. -/
theorem receiveBits_of_unmark (cfg : Config) (cs : List Color) (es : List Event)
    (h : es.map unmark = frameTrace cfg cs) :
    receiveBits es = (cs.flatMap (colorBits cfg)).map (readAs cfg) := by
  rw [← (receiveBits_unmark es).1, h]
  simpa [receiveBits] using receiveBits_frame cfg cs []

/-- Black is sent as zeros. -/
theorem colorBits_black (cfg : Config) : colorBits cfg ⟨0, 0, 0⟩ = List.replicate cfg.colorBitCount false := by
  rw [← colorBits_length cfg ⟨0, 0, 0⟩, List.eq_replicate_length]
  intro b hb
  simp only [colorBits, byteBits, bitsDown, List.mem_flatMap, List.mem_map] at hb
  obtain ⟨k, -, i, -, rfl⟩ := hb
  cases k <;> exact BitVec.getLsbD_zero

/-- The bits of as many black colors as `cs` has are zeros. -/
theorem flatMap_colorBits_black (cfg : Config) (cs : List Color) :
    (cs.map fun _ => (⟨0, 0, 0⟩ : Color)).flatMap (colorBits cfg)
      = List.replicate (cfg.colorBitCount * cs.length) false := by
  simp only [List.flatMap_map, colorBits_black]
  induction cs with
  | nil => rfl
  | cons c cs ih =>
    rw [List.flatMap_cons, ih, List.replicate_append_replicate, List.length_cons, Nat.mul_succ, Nat.add_comm]

/-- Settles O28: each symbol is read as `readAs` says, so the bits come back, or zeros in their place; in
groups of 24 they are the colors, or black ones. -/
theorem receiverReadsBackTheSequence : Obligations.ReceiverReadsBackTheSequence := by
  intro cfg cs es he
  have hread := receiveBits_of_unmark cfg cs es he
  constructor
  · intro h
    have hbits : receiveBits es = cs.flatMap (colorBits cfg) := by
      rw [hread, funext (readAs_eq_self cfg h), List.map_id']
    exact ⟨hbits, fun hf => receive_of_bits cfg es cs hf hbits⟩
  · rintro ⟨hv, hd⟩
    have hbits : receiveBits es = List.replicate (cfg.colorBitCount * cs.length) false := by
      rw [hread, funext (readAs_bothShift cfg hv hd), List.map_const', flatMap_colorBits_length]
    exact ⟨hbits, fun hf => receive_of_bits cfg es _ hf (hbits.trans (flatMap_colorBits_black cfg cs).symm)⟩

end Sys2Proof.Machine
end

section
/-!
Failures are discarded (R122 to R124): every operation takes two states that differ in nothing but faults to
two such states.
-/
namespace Sys2Proof.Safety

open Sys2Proof.Machine

/-- Events that are the same without their fault marks keep two logs the same without theirs. -/
theorem map_unmark_cons {e f : Event} {l m : List Event} (h : unmark e = unmark f)
    (hl : l.map unmark = m.map unmark) : (e :: l).map unmark = (f :: m).map unmark := by
  rw [List.map_cons, List.map_cons, h, hl]

section Pairs

variable {s t : State}

theorem SameButFaults.setSeq (h : SameButFaults s t) {q r : Seq} (hq : q = r) :
    SameButFaults { s with seq := q } { t with seq := r } :=
  ⟨h.cfg, hq, h.pin, h.col, h.tickno, h.source, h.stim, h.log⟩

theorem SameButFaults.setStim (h : SameButFaults s t) (r : List Stimulus) :
    SameButFaults { s with stim := r } { t with stim := r } :=
  ⟨h.cfg, h.seq, h.pin, h.col, h.tickno, h.source, rfl, h.log⟩

theorem SameButFaults.emit (h : SameButFaults s t) (e : Event) : SameButFaults (emit e s) (emit e t) :=
  ⟨h.cfg, h.seq, h.pin, h.col, h.tickno, h.source, h.stim, map_unmark_cons rfl h.log⟩

/-- A micro-operation's status reaches the fault plan, the real ticks, `pinHeld` and the mark only. -/
theorem SameButFaults.doUop (h : SameButFaults s t) (u : Uop) : SameButFaults (doUop u s) (doUop u t) := by
  cases u with
  | w =>
    exact ⟨h.cfg, h.seq, h.pin, h.col, congrArg (· + 1) h.tickno, h.source, h.stim, map_unmark_cons rfl h.log⟩
  | h => exact ⟨h.cfg, h.seq, rfl, h.col, h.tickno, h.source, h.stim, map_unmark_cons rfl h.log⟩
  | l => exact ⟨h.cfg, h.seq, rfl, h.col, h.tickno, h.source, h.stim, map_unmark_cons rfl h.log⟩

theorem SameButFaults.perform (h : SameButFaults s t) (us : List Uop) :
    SameButFaults (perform us s) (perform us t) := by
  induction us generalizing s t with
  | nil => exact h
  | cons u us ih => exact ih (h.doUop u)

theorem SameButFaults.sendSymbol (h : SameButFaults s t) (v : Variant) (b : Bool) :
    SameButFaults (sendSymbol v b s) (sendSymbol v b t) := by
  unfold Machine.sendSymbol
  rw [h.cfg]
  exact h.perform _

theorem SameButFaults.sendByte (h : SameButFaults s t) (v : Byte) :
    SameButFaults (sendByte v s) (sendByte v t) := by
  unfold Machine.sendByte
  rw [h.cfg]
  exact h.perform _

theorem SameButFaults.sendColor (h : SameButFaults s t) (c : Color) :
    SameButFaults (sendColor c s) (sendColor c t) := by
  rw [sendColor_eq, sendColor_eq, h.cfg]
  exact h.perform _

theorem SameButFaults.sendGap (h : SameButFaults s t) : SameButFaults (sendGap s) (sendGap t) := by
  unfold Machine.sendGap
  rw [h.cfg]
  exact (h.perform _).setSeq rfl

theorem SameButFaults.finish (h : SameButFaults s t) : SameButFaults (finish s) (finish t) :=
  (h.sendGap.emit _).setSeq rfl

theorem SameButFaults.begin (h : SameButFaults s t) : SameButFaults (begin s) (begin t) :=
  ⟨h.cfg, rfl, h.pin, h.col, rfl, h.source, h.stim, map_unmark_cons rfl h.log⟩

/-- A fetch answers alike, for it asks the source only. -/
theorem SameButFaults.fetch (h : SameButFaults s t) :
    (fetch s).1 = (fetch t).1 ∧ SameButFaults (fetch s).2 (fetch t).2 := by
  unfold Machine.fetch
  rw [h.source]
  cases decodeItem (t.source.pop).1 with
  | none => exact ⟨rfl, h.cfg, h.seq, h.pin, h.col, h.tickno, rfl, h.stim, map_unmark_cons rfl h.log⟩
  | some c => exact ⟨rfl, h.cfg, h.seq, h.pin, rfl, h.tickno, rfl, h.stim, map_unmark_cons rfl h.log⟩

/-- The fetch loops of two such states meet their ends together. -/
theorem SameButFaults.sendAll (n : Nat) (h : SameButFaults s t) :
    Option.Rel SameButFaults (sendAll n s) (sendAll n t) := by
  induction n generalizing s t with
  | zero => exact .none
  | succ n ih =>
    obtain ⟨hans, hst⟩ := h.fetch
    simp only [Machine.sendAll]
    rcases hs : Machine.fetch s with ⟨a, s'⟩
    rcases ht : Machine.fetch t with ⟨b, t'⟩
    rw [hs, ht] at hans hst
    cases hans
    cases a with
    | none => exact .some hst.finish
    | some c => exact ih (hst.sendColor c)

theorem SameButFaults.busy (h : SameButFaults s t) : busy s = busy t := by
  simp only [Machine.busy, h.seq]

theorem SameButFaults.acceptStart (h : SameButFaults s t) : sameOutcome (acceptStart s) (acceptStart t) := by
  unfold Machine.acceptStart
  rw [h.seq]
  split
  · exact h.begin
  · rfl

/-- Every operation, run alone, does the same in both. -/
theorem SameButFaults.exec (h : SameButFaults s t) (i : Instr) : sameOutcome (exec i s) (exec i t) := by
  cases i with
  | new =>
    simp only [Machine.exec, execNew, h.seq]
    split
    · exact ((h.emit .new).doUop .l).setSeq rfl
    · rfl
  | write =>
    simp only [Machine.exec, execWrite, h.seq, h.source]
    split
    · have hall := h.begin.sendAll (t.source.words.length + 1)
      revert hall
      cases Machine.sendAll (t.source.words.length + 1) (Machine.begin s) with
      | none =>
        cases Machine.sendAll (t.source.words.length + 1) (Machine.begin t) with
        | none => exact fun _ => h.begin
        | some t' => exact nofun
      | some s' =>
        cases Machine.sendAll (t.source.words.length + 1) (Machine.begin t) with
        | none => exact nofun
        | some t' => exact fun | .some hst => hst
    · rfl
  | color c => exact h.sendColor c
  | endSeq => exact h.finish
  | gap => exact h.sendGap
  | byte v => exact h.sendByte v
  | sym1Std => exact h.sendSymbol .std true
  | sym0Std => exact h.sendSymbol .std false
  | sym1Deg => exact h.sendSymbol .deg true
  | sym0Deg => exact h.sendSymbol .deg false
  | w => exact h.doUop .w
  | h => exact h.doUop .h
  | l => exact h.doUop .l
  | f => exact h.fetch.2

/-- The sequencer's action depends on nothing a fault can change. -/
theorem SameButFaults.sequencer (h : SameButFaults s t) : sameOutcome (sequencer s) (sequencer t) := by
  cases hq : t.seq with
  | unbound =>
    rw [sequencer_unbound s (h.seq.trans hq), sequencer_unbound t hq]
    exact h
  | idle =>
    rw [sequencer_idle s (h.seq.trans hq), sequencer_idle t hq]
    exact h
  | fetch =>
    obtain ⟨hans, hst⟩ := h.fetch
    rcases hs : Machine.fetch s with ⟨a, s'⟩
    rcases ht : Machine.fetch t with ⟨b, t'⟩
    rw [hs, ht] at hans hst
    cases hans
    cases a with
    | none =>
      rw [sequencer_fetch_none s s' (h.seq.trans hq) hs, sequencer_fetch_none t t' hq ht]
      exact hst.setSeq (congrArg (Seq.gap ·.gapTicks) hst.cfg)
    | some c =>
      rw [sequencer_fetch_some s s' c (h.seq.trans hq) hs, sequencer_fetch_some t t' c hq ht]
      exact hst.setSeq (congrArg (channelStart · 0) hst.cfg)
  | sym ch i u =>
    cases hb : symBit t.cfg t.col ch i with
    | none =>
      rw [sequencer_sym_none s ch i u (h.seq.trans hq) (by rw [h.cfg, h.col, hb]),
        sequencer_sym_none t ch i u hq hb]
      rfl
    | some bit =>
      rw [sequencer_sym s ch i u bit (h.seq.trans hq) (by rw [h.cfg, h.col, hb]),
        sequencer_sym t ch i u bit hq hb, h.cfg]
      exact (h.doUop _).setSeq rfl
  | gap n =>
    match n, hq with
    | 0, hq =>
      rw [sequencer_gap_zero s (h.seq.trans hq), sequencer_gap_zero t hq]
      rfl
    | 1, hq =>
      rw [sequencer_gap_one s (h.seq.trans hq), sequencer_gap_one t hq]
      exact ((h.doUop .w).emit _).setSeq rfl
    | n + 2, hq =>
      rw [sequencer_gap_more s n (h.seq.trans hq), sequencer_gap_more t n hq]
      exact (h.doUop .w).setSeq rfl

end Pairs

/-- Settles O39: the two states have the same stimulus, and what it selects does the same in both. -/
theorem failuresAreDiscarded : Obligations.FailuresAreDiscarded := by
  intro s t h
  cases ht : t.stim with
  | nil =>
    rw [step_nil s (h.stim.trans ht), step_nil t ht]
    exact h.sequencer
  | cons a rest =>
    have hs : s.stim = a :: rest := h.stim.trans ht
    cases a with
    | new =>
      rw [step_new s rest hs, step_new t rest ht]
      exact (h.setStim rest).exec .new
    | start =>
      rw [step_start s rest hs, step_start t rest ht]
      exact (h.setStim rest).acceptStart
    | pass =>
      rw [step_pass s rest hs, step_pass t rest ht]
      exact (h.setStim rest).sequencer
    | awaitDone =>
      rw [step_awaitDone s rest hs, step_awaitDone t rest ht, h.busy]
      split
      · exact h.sequencer
      · exact h.setStim rest
    | forbidden k =>
      rw [step_forbidden s k rest hs, step_forbidden t k rest ht]
      rfl
    | alone p w =>
      cases hd : decode p w with
      | error r =>
        rw [step_alone_error s p w rest r hs hd, step_alone_error t p w rest r ht hd]
        rfl
      | ok i =>
        rw [step_alone_ok s p w rest i hs hd, step_alone_ok t p w rest i ht hd]
        exact (h.setStim rest).exec i

end Sys2Proof.Safety
end

section
/-!
What a step can do under a host at the ports, said once: `HostMove`. The statements about such a step follow
from its cases.
-/
namespace Sys2Proof.Machine

open Sys2Proof.Safety

/-- What a step from `s` under a host at the ports can lead to, `rest` being what the host will still do: the
block is let be, a strobe is accepted, or the sequencer acts (R106). -/
inductive HostMove (s : State) (rest : List Stimulus) : State → Prop
  | still (hq : s.seq = .unbound ∨ s.seq = .idle) : HostMove s rest { s with stim := rest }
  | new (hq : s.seq = .unbound) : HostMove s rest { opL (emit .new { s with stim := rest }) with seq := .idle }
  | start (hq : s.seq = .idle) (hs : ∃ r, s.stim = .start :: r) : HostMove s rest (begin { s with stim := rest })
  | color (c : Color) (hq : s.seq = .fetch) : HostMove s rest { s with
      stim := rest, source := (s.source.pop).2, col := c, log := .fetched (some c) :: s.log
      seq := channelStart s.cfg 0 }
  | endMark (hq : s.seq = .fetch) : HostMove s rest { s with
      stim := rest, source := (s.source.pop).2, log := .fetched none :: s.log, seq := .gap s.cfg.gapTicks }
  | uop (ch : Fin 3) (i : Fin 8) (u : Fin 5) (bit : Bool) (hq : s.seq = .sym ch i u)
      (hb : symBit s.cfg s.col ch i = some bit) : HostMove s rest
        { doUop ((scheduleOf s.cfg bit).op u) { s with stim := rest } with seq := nextSeq s.cfg ch i u }
  | lastWait (hq : s.seq = .gap 1) :
      HostMove s rest { emit (.done .ok) (opW { s with stim := rest }) with seq := .idle }
  | wait (n : Nat) (hq : s.seq = .gap (n + 2)) :
      HostMove s rest { opW { s with stim := rest } with seq := .gap (n + 1) }

/-- `busy` is 0 in `UNBOUND` and `IDLE` alone (R16). -/
theorem busy_eq_false_iff (s : State) : busy s = false ↔ s.seq = .unbound ∨ s.seq = .idle := by
  unfold busy
  cases s.seq <;> simp

/-- Every step under a host at the ports is one of these moves. -/
theorem hostMove_of_step {s t : State} (hh : hostOnly s = true) (h : step s = .next t) :
    ∃ rest, rest.all isHost = true ∧ HostMove s rest t := by
  obtain ⟨rest, hr, ⟨hseq, -, -⟩ | ⟨hb, -, rfl⟩ | ⟨hq, -, rfl⟩ | ⟨hq, hs, rfl⟩⟩ := step_host_cases s t hh h
  · refine ⟨rest, hr, ?_⟩
    obtain ⟨hq, rfl⟩ | ⟨c, r, hq, hf, rfl⟩ | ⟨r, hq, hf, rfl⟩ | ⟨ch, i, u, bit, hq, hb, rfl⟩ | ⟨hq, rfl⟩
      | ⟨n, hq, rfl⟩ := sequencer_cases _ _ hseq
    · exact .still hq
    · obtain ⟨d, -, hd⟩ | ⟨-, hd⟩ := fetch_cases { s with stim := rest }
      · cases hf.symm.trans hd
        exact .color c hq
      · cases hf.symm.trans hd
    · obtain ⟨d, -, hd⟩ | ⟨-, hd⟩ := fetch_cases { s with stim := rest }
      · cases hf.symm.trans hd
      · cases hf.symm.trans hd
        exact .endMark hq
    · exact .uop ch i u bit hq hb
    · exact .lastWait hq
    · exact .wait n hq
  · exact ⟨rest, hr, .still ((busy_eq_false_iff s).1 hb)⟩
  · exact ⟨rest, hr, .new hq⟩
  · exact ⟨rest, hr, .start hq hs⟩

/-- After such a move the host does what was left. -/
theorem HostMove.stim_eq {s t : State} {rest : List Stimulus} (h : HostMove s rest t) : t.stim = rest := by
  cases h with
  | uop ch i u bit hq hb => exact doUop_stim _ _
  | _ => rfl

/-- After such a move everything still to come is a host's. -/
theorem HostMove.hostOnly {s t : State} {rest : List Stimulus} (h : HostMove s rest t)
    (hr : rest.all isHost = true) : hostOnly t = true := by
  rw [Safety.hostOnly, h.stim_eq, hr]

/-- After a micro-operation of a symbol the sequencer is in `FETCH` or in a symbol (R106). -/
theorem nextSeq_fetch_or_sym (cfg : Config) (ch : Fin 3) (i : Fin 8) (u : Fin 5) :
    nextSeq cfg ch i u = .fetch ∨ ∃ ch' i' u', nextSeq cfg ch i u = .sym ch' i' u' := by
  unfold nextSeq channelStart
  split
  · exact .inr ⟨_, _, _, rfl⟩
  · split
    · exact .inr ⟨_, _, _, rfl⟩
    · split
      · exact .inr ⟨_, _, _, rfl⟩
      · exact .inl rfl

/-! Counting events of the trace. -/

/-- A state whose log has one event more counts that event. -/
theorem count_trace_cons (a : Event) {s t : State} {e : Event} (h : t.log = e :: s.log) :
    t.trace.count a = s.trace.count a + (if e = a then 1 else 0) := by
  rw [trace_of_log_cons s t e h, List.count_append, List.count_singleton]
  simp

/-- A micro-operation adds one event, which is its own but for the fault mark. -/
theorem doUop_log (u : Uop) (s : State) : ∃ e, (doUop u s).log = e :: s.log ∧ unmark e = eventOf u := by
  cases u <;> exact ⟨_, rfl, rfl⟩

end Sys2Proof.Machine
end

section
/-!
Every step under a host at the ports keeps the pin invariant (R12, R21, R87), and in every state of the
invariant a step without a strobe completes (R106).
-/
namespace Sys2Proof.Machine

open Sys2Proof.Safety

/-! The level of the pin inside a symbol (R21). -/

/-- The micro-operations of a schedule before number `u + 1` are those before `u`, then `u`. -/
theorem toList_take_succ (σ : Schedule) (u : Fin 5) :
    σ.toList.take (u.val + 1) = σ.toList.take u.val ++ [σ.op u] := by
  fin_cases u <;> rfl

/-- A schedule drives a low pin high and a high pin low (R87). -/
theorem symtab_op_level (d : DegTable) (v : Variant) (b : Bool) (u : Fin 5) :
    ((symtab d v b).op u = .h → levelAfter ((symtab d v b).toList.take u.val) false = false)
    ∧ ((symtab d v b).op u = .l → levelAfter ((symtab d v b).toList.take u.val) false = true) := by
  cases d <;> cases v <;> cases b <;> revert u <;> decide

/-- The level that performing a micro-operation leaves. -/
theorem doUop_pin (u : Uop) (s : State) : (doUop u s).pin = levelAfter [u] s.pin :=
  (doUop_performed u s).pin

/-- Where the pin is as R21 says, the next micro-operation leaves it as R21 says. -/
theorem doUop_pin_of_level (s : State) (σ : Schedule) (u : Fin 5)
    (h : s.pin = levelAfter (σ.toList.take u.val) false) :
    (doUop (σ.op u) s).pin = levelAfter (σ.toList.take (u.val + 1)) false := by
  rw [doUop_pin, h, toList_take_succ, levelAfter_append]

/-- R21 gives the pin low at the first micro-operation of a symbol. -/
theorem boundaryPin_symbolStart {s : State} {ch : Fin 3} {i : Fin 8} {b : Bool}
    (hq : s.seq = .sym ch i 0) (h : boundaryPin s = some b) : b = false := by
  unfold boundaryPin at h
  rw [hq] at h
  simp only [Option.map_eq_some_iff] at h
  obtain ⟨bit, -, hb⟩ := h
  exact hb.symm

/-- R21 inside a symbol. -/
theorem boundaryPin_sym {s : State} {ch : Fin 3} {i : Fin 8} {u : Fin 5} {bit : Bool}
    (hq : s.seq = .sym ch i u) (hb : symBit s.cfg s.col ch i = some bit) :
    boundaryPin s = some (levelAfter ((scheduleOf s.cfg bit).toList.take u.val) false) := by
  unfold boundaryPin
  rw [hq]
  simp only [hb, Option.map_some]

/-- After its last micro-operation a symbol is followed by the fetch or by the start of a symbol (R106). -/
theorem nextSeq_last_cases (cfg : Config) (ch : Fin 3) (i : Fin 8) :
    nextSeq cfg ch i 4 = .fetch ∨ ∃ ch' i', nextSeq cfg ch i 4 = .sym ch' i' 0 := by
  rw [nextSeq_last]
  unfold channelStart
  split
  · exact .inr ⟨_, _, rfl⟩
  · split
    · exact .inr ⟨_, _, rfl⟩
    · exact .inl rfl

/-! The parts of the invariant. -/

/-- The level of the pin at the next micro-operation of a symbol, in a state of the invariant. -/
theorem pin_at_sym {s : State} {ch : Fin 3} {i : Fin 8} {u : Fin 5} {bit : Bool} (hi : Inv s)
    (hq : s.seq = .sym ch i u) (hb : symBit s.cfg s.col ch i = some bit) :
    s.pin = levelAfter ((scheduleOf s.cfg bit).toList.take u.val) false :=
  hi.pin _ (boundaryPin_sym hq hb)

theorem HostMove.keeps_pin {s t : State} {rest : List Stimulus} (h : HostMove s rest t) (hi : Inv s) :
    ∀ b, boundaryPin t = some b → t.pin = b := by
  intro b hb
  cases h with
  | still hq => exact hi.pin b hb
  | new hq =>
    cases hb
    rfl
  | start hq hs | endMark hq | lastWait hq | wait n hq =>
    cases hb
    exact hi.pin false (by simp [boundaryPin, hq])
  | color c hq =>
    rw [boundaryPin_symbolStart rfl hb]
    exact hi.pin false (by simp [boundaryPin, hq])
  | uop ch i u bit hq hbit =>
    have hlevel := pin_at_sym hi hq hbit
    have hpin := doUop_pin_of_level { s with stim := rest } (scheduleOf s.cfg bit) u hlevel
    by_cases hu : u.val < 4
    · cases hb.symm.trans (boundaryPin_sym (nextSeq_inside s.cfg ch i u hu)
        (show symBit _ _ ch i = some bit by simpa using hbit))
      simpa using hpin
    · obtain rfl : u = 4 := by omega
      have hlow : (doUop ((scheduleOf s.cfg bit).op 4) { s with stim := rest }).pin = false :=
        hpin.trans ((symtab_counts _ _ _).2.2.2.2 false)
      obtain hn | ⟨ch', i', hn⟩ := nextSeq_last_cases s.cfg ch i
      · simp only [hn, boundaryPin] at hb
        cases hb
        exact hlow
      · rw [boundaryPin_symbolStart hn hb]
        exact hlow

theorem HostMove.keeps_gap {s t : State} {rest : List Stimulus} (h : HostMove s rest t) (hi : Inv s) :
    ∀ n, t.seq = .gap n → 1 ≤ n ∧ n ≤ t.cfg.gapTicks := by
  intro n hn
  cases h with
  | still hq => exact hi.gap n hn
  | new hq | start hq hs | color c hq | lastWait hq => cases hn
  | endMark hq =>
    cases hn
    exact ⟨s.cfg.gapTicks_pos, le_refl _⟩
  | uop ch i u bit hq hb =>
    obtain hf | ⟨ch', i', u', hs⟩ := nextSeq_fetch_or_sym s.cfg ch i u
    · exact absurd (hf.symm.trans hn) nofun
    · exact absurd (hs.symm.trans hn) nofun
  | wait m hq =>
    cases hn
    have hgap := (hi.gap _ hq).2
    exact ⟨Nat.succ_pos m, Nat.le_of_succ_le hgap⟩

theorem HostMove.keeps_range {s t : State} {rest : List Stimulus} (h : HostMove s rest t) (hi : Inv s) :
    ∀ ch i u, t.seq = .sym ch i u → ch.val < t.cfg.channels ∧ i.val < t.cfg.bits := by
  intro ch i u hq'
  cases h with
  | still hq => exact hi.range ch i u hq'
  | new hq | start hq hs | endMark hq | lastWait hq | wait n hq => cases hq'
  | color c hq =>
    cases hq'
    exact ⟨s.cfg.channels_range.1, Nat.sub_lt s.cfg.bits_range.1 Nat.one_pos⟩
  | uop ch' i' u' bit hq hb =>
    obtain ⟨hch, hbit⟩ := hi.range ch' i' u' hq
    obtain hf | ⟨ch₂, i₂, u₂, hs, hch₂, hi₂⟩ := nextSeq_cases s.cfg ch' i' u' hch hbit
    · exact absurd (hf.symm.trans hq') nofun
    · cases hs.symm.trans hq'
      simpa using And.intro hch₂ hi₂

/-- Where a move leaves the block in `UNBOUND`, nothing has happened. -/
theorem HostMove.unbound {s t : State} {rest : List Stimulus} (h : HostMove s rest t)
    (ht : t.seq = .unbound) : s.seq = .unbound ∧ t.trace = s.trace := by
  cases h with
  | still hq => exact ⟨ht, rfl⟩
  | new hq | start hq hs | color c hq | endMark hq | lastWait hq | wait n hq => cases ht
  | uop ch i u bit hq hb =>
    obtain hf | ⟨ch', i', u', hs⟩ := nextSeq_fetch_or_sym s.cfg ch i u
    · exact absurd (hf.symm.trans ht) nofun
    · exact absurd (hs.symm.trans ht) nofun

/-- Every `H` so far has its `L`, one more `L` being `NEW`'s, and one fewer while the pin is high (R87). -/
def Matched (s : State) : Prop := s.trace.count .high + 1 = s.trace.count .low + s.pin.toNat

/-- An event that is no pin event and leaves the pin keeps the edges matched. -/
theorem Matched.of_log_cons {s t : State} {e : Event} (h : Matched s) (hl : t.log = e :: s.log)
    (hp : t.pin = s.pin) (hh : e ≠ .high) (hl' : e ≠ .low) : Matched t := by
  unfold Matched
  rw [count_trace_cons .high hl, count_trace_cons .low hl, if_neg hh, if_neg hl', hp]
  exact h

/-- A schedule's micro-operation keeps the edges matched where the pin is as R21 says. -/
theorem Matched.doUop_symtab {s : State} (h : Matched s) (d : DegTable) (v : Variant) (b : Bool) (u : Fin 5)
    (hp : s.pin = levelAfter ((symtab d v b).toList.take u.val) false) :
    Matched (doUop ((symtab d v b).op u) s) := by
  obtain ⟨hhigh, hlow⟩ := symtab_op_level d v b u
  rw [← hp] at hhigh hlow
  cases ho : (symtab d v b).op u with
  | w => exact h.of_log_cons (opW_log s) rfl nofun nofun
  | h =>
    unfold Matched at h ⊢
    rw [count_trace_cons .high rfl, count_trace_cons .low rfl]
    rw [hhigh ho] at h
    simpa [doUop] using h
  | l =>
    unfold Matched at h ⊢
    rw [count_trace_cons .high rfl, count_trace_cons .low rfl]
    rw [hlow ho] at h
    simpa [doUop] using h

theorem HostMove.keeps_edges {s t : State} {rest : List Stimulus} (h : HostMove s rest t) (hi : Inv s)
    (ht : t.seq ≠ .unbound) : Matched t := by
  cases h with
  | still hq => exact hi.edges ht
  | new hq =>
    obtain ⟨hhigh, hlow⟩ := hi.fresh hq
    rw [trace_eq, List.count_reverse] at hhigh hlow
    simp [Matched, trace_eq, hhigh, hlow]
  | start hq hs | color c hq | endMark hq | wait n hq =>
    have hm : Matched s := hi.edges (by rw [hq]; nofun)
    exact hm.of_log_cons rfl rfl nofun nofun
  | lastWait hq =>
    have hm : Matched s := hi.edges (by rw [hq]; nofun)
    have hw : Matched (opW s) := hm.of_log_cons rfl rfl nofun nofun
    exact hw.of_log_cons rfl rfl nofun nofun
  | uop ch i u bit hq hb =>
    have hm : Matched s := hi.edges (by rw [hq]; nofun)
    have hlevel := pin_at_sym hi hq hb
    have hm' : Matched { s with stim := rest } := hm
    exact hm'.doUop_symtab _ _ bit u hlevel

/-- Settles O44: each part of the invariant is kept by each move of a host step. -/
theorem stepKeepsPinInvariant : Obligations.StepKeepsPinInvariant := by
  intro s t hi hstep
  obtain ⟨rest, hr, hm⟩ := hostMove_of_step hi.host hstep
  refine ⟨hm.hostOnly hr, hm.keeps_pin hi, hm.keeps_gap hi, hm.keeps_range hi, fun ht => ?_, hm.keeps_edges hi⟩
  obtain ⟨hq, htrace⟩ := hm.unbound ht
  rw [htrace]
  exact hi.fresh hq

/-- Settles O45: at reset `NEW`'s `L` is the only pin event, and before construction there is none. -/
theorem pinInvariantAtReset : Obligations.PinInvariantAtReset := by
  constructor
  · exact ⟨rfl, fun b hb => Option.some.inj hb, nofun, nofun, nofun, fun _ => rfl⟩
  · exact ⟨rfl, nofun, nofun, nofun, fun _ => ⟨rfl, rfl⟩, fun h => absurd rfl h⟩

/-- In every state of the invariant the sequencer has an action (R106). -/
theorem sequencer_next {s : State} (hi : Inv s) : ∃ t, sequencer s = .next t := by
  cases hq : s.seq with
  | unbound => exact ⟨_, sequencer_unbound s hq⟩
  | idle => exact ⟨_, sequencer_idle s hq⟩
  | fetch =>
    obtain ⟨c, -, hf⟩ | ⟨-, hf⟩ := fetch_cases s
    · exact ⟨_, sequencer_fetch_some s _ c hq hf⟩
    · exact ⟨_, sequencer_fetch_none s _ hq hf⟩
  | sym ch i u =>
    obtain ⟨hch, hbit⟩ := hi.range ch i u hq
    obtain ⟨b, hb⟩ := symBit_some s.cfg s.col ch i hch hbit
    exact ⟨_, sequencer_sym s ch i u b hq hb⟩
  | gap n =>
    have hn := (hi.gap n hq).1
    match n, hn with
    | 1, _ => exact ⟨_, sequencer_gap_one s hq⟩
    | n + 2, _ => exact ⟨_, sequencer_gap_more s n hq⟩

/-- The invariant allows the host any further stimuli of its own. -/
theorem inv_setStim {s : State} (hi : Inv s) {rest : List Stimulus} (hr : rest.all isHost = true) :
    Inv { s with stim := rest } :=
  ⟨hr, hi.pin, hi.gap, hi.range, hi.fresh, hi.edges⟩

/-- Settles O57: without a strobe the sequencer acts, or the wait for `done` is over. -/
theorem invariantStateAlwaysSteps : Obligations.InvariantStateAlwaysSteps := by
  rintro s hi (hs | ⟨rest, hs⟩ | ⟨rest, hs⟩)
  · rw [step_nil s hs]
    exact sequencer_next hi
  · have hr : rest.all isHost = true := by
      have hh := hi.host
      rw [hostOnly, hs, List.all_cons, Bool.and_eq_true] at hh
      exact hh.2
    rw [step_pass s rest hs]
    exact sequencer_next (inv_setStim hi hr)
  · rw [step_awaitDone s rest hs]
    split
    · exact sequencer_next hi
    · exact ⟨_, rfl⟩

end Sys2Proof.Machine
end

section
/-!
What a step under a host at the ports adds to the trace and changes: `done` and `busy` (R16), the fetch (R42),
the latch (R13), the pin (R11, R39), and the faultless invariant (R123, R124).
-/
namespace Sys2Proof.Machine

open Sys2Proof.Safety

/-! Events that a move adds. -/

/-- The events a move adds, the newest first: none, those of a strobe, a fetch, the gap's last wait with its
`done`, or one micro-operation's. -/
theorem HostMove.log_cases {s t : State} {rest : List Stimulus} (h : HostMove s rest t) :
    ((s.seq = .unbound ∨ s.seq = .idle) ∧ t.log = s.log)
    ∨ (s.seq = .unbound ∧ t.log = .low :: .new :: s.log)
    ∨ (s.seq = .idle ∧ t.log = .start :: s.log)
    ∨ (s.seq = .fetch ∧ ∃ a, t.log = .fetched a :: s.log)
    ∨ (s.seq = .gap 1 ∧ ∃ failed, t.log = .done .ok :: .tick failed :: s.log)
    ∨ (s.seq ≠ .fetch ∧ s.seq ≠ .gap 1 ∧ ∃ u e, t.log = e :: s.log ∧ unmark e = eventOf u) := by
  cases h with
  | still hq => exact .inl ⟨hq, rfl⟩
  | new hq => exact .inr (.inl ⟨hq, rfl⟩)
  | start hq hs => exact .inr (.inr (.inl ⟨hq, rfl⟩))
  | color c hq => exact .inr (.inr (.inr (.inl ⟨hq, _, rfl⟩)))
  | endMark hq => exact .inr (.inr (.inr (.inl ⟨hq, _, rfl⟩)))
  | lastWait hq => exact .inr (.inr (.inr (.inr (.inl ⟨hq, _, rfl⟩))))
  | uop ch i u bit hq hb =>
    obtain ⟨e, he, hu⟩ := doUop_log ((scheduleOf s.cfg bit).op u) { s with stim := rest }
    exact .inr (.inr (.inr (.inr (.inr ⟨by rw [hq]; nofun, by rw [hq]; nofun, _, e, he, hu⟩))))
  | wait n hq =>
    exact .inr (.inr (.inr (.inr (.inr ⟨by rw [hq]; nofun, by rw [hq]; simp, .w, _, rfl, rfl⟩))))

/-- A micro-operation's event is neither a fetch nor `done`. -/
theorem not_fetch_not_done_of_unmark {e : Event} {u : Uop} (h : unmark e = eventOf u) :
    isFetch e = false ∧ e ≠ .done .ok := by
  cases e with
  | tick failed | high | low | new | start => exact ⟨rfl, nofun⟩
  | fetched a | done r => cases u <;> cases h

/-- `done` is added in `GAP(1)` alone, once. -/
theorem HostMove.count_done {s t : State} {rest : List Stimulus} (h : HostMove s rest t) :
    t.trace.count (.done .ok) = s.trace.count (.done .ok) + (if s.seq = .gap 1 then 1 else 0) := by
  simp only [trace_eq, List.count_reverse]
  obtain ⟨hq | hq, hl⟩ | ⟨hq, hl⟩ | ⟨hq, hl⟩ | ⟨hq, a, hl⟩ | ⟨hq, failed, hl⟩
    | ⟨-, hq, u, e, hl, hu⟩ := h.log_cases
  · simp [hl, hq]
  · simp [hl, hq]
  · simp [hl, hq]
  · simp [hl, hq]
  · simp [hl, hq]
  · simp [hl, hq]
  · simp [hl, hq, (not_fetch_not_done_of_unmark hu).2]

/-- A fetch is added in `FETCH` alone, one. -/
theorem HostMove.countP_isFetch {s t : State} {rest : List Stimulus} (h : HostMove s rest t) :
    t.trace.countP isFetch = s.trace.countP isFetch + (if s.seq = .fetch then 1 else 0) := by
  simp only [trace_eq, List.countP_reverse]
  obtain ⟨hq | hq, hl⟩ | ⟨hq, hl⟩ | ⟨hq, hl⟩ | ⟨hq, a, hl⟩ | ⟨hq, failed, hl⟩
    | ⟨hq, -, u, e, hl, hu⟩ := h.log_cases
  · simp [hl, hq]
  · simp [hl, hq]
  · simp [hl, hq, isFetch]
  · simp [hl, hq, isFetch]
  · simp [hl, hq, List.countP_cons, isFetch]
  · simp [hl, hq, isFetch]
  · simp [hl, hq, (not_fetch_not_done_of_unmark hu).1]

/-- Settles O38: a host step is a move, which fetches in `FETCH` alone. -/
theorem fetchOnlyInFetchState : Obligations.FetchOnlyInFetchState := by
  intro s t hh hstep
  obtain ⟨rest, -, hm⟩ := hostMove_of_step hh hstep
  exact hm.countP_isFetch

/-! `busy` (R16). -/

/-- A move from a busy state leaves the block busy but in `GAP(1)`. -/
theorem HostMove.busy_falls_iff {s t : State} {rest : List Stimulus} (h : HostMove s rest t) :
    busy s = true ∧ busy t = false ↔ s.seq = .gap 1 := by
  cases h with
  | still hq => rcases hq with hq | hq <;> simp [busy, hq]
  | new hq | start hq hs | endMark hq | lastWait hq | wait n hq => simp [busy, hq]
  | color c hq => simp [busy, hq, channelStart]
  | uop ch i u bit hq hb =>
    obtain hf | ⟨ch', i', u', hs⟩ := nextSeq_fetch_or_sym s.cfg ch i u
    · simp [busy, hq, hf]
    · simp [busy, hq, hs]

/-- A move that makes the block busy is that of the `start` strobe. -/
theorem HostMove.start_of_busy_rises {s t : State} {rest : List Stimulus} (h : HostMove s rest t)
    (hs : busy s = false) (ht : busy t = true) : ∃ r, s.stim = .start :: r := by
  rw [busy_eq_false_iff] at hs
  cases h with
  | still hq => rw [(busy_eq_false_iff { s with stim := rest }).2 hq] at ht; cases ht
  | new hq => cases ht
  | start hq hst => exact hst
  | color c hq | endMark hq | uop ch i u bit hq hb | lastWait hq | wait n hq => simp [hq] at hs

/-- The `start` strobe is accepted where the block is not busy, and makes it busy (R106). -/
theorem busy_rises_of_start {s t : State} {r : List Stimulus} (hs : s.stim = .start :: r)
    (h : step s = .next t) : busy s = false ∧ busy t = true := by
  rw [step_start s r hs, acceptStart] at h
  split at h
  · next hq =>
    cases h
    exact ⟨(busy_eq_false_iff s).2 (.inr hq), rfl⟩
  · cases h

/-- Settles O37: the move of `GAP(1)` is the one that adds `done` and ends `busy`; that of `start` begins it. -/
theorem doneAndBusyTogether : Obligations.DoneAndBusyTogether := by
  intro s t hh hstep
  obtain ⟨rest, -, hm⟩ := hostMove_of_step hh hstep
  exact ⟨hm.count_done, hm.busy_falls_iff,
    fun ⟨hs, ht⟩ => hm.start_of_busy_rises hs ht, fun ⟨_, hs⟩ => busy_rises_of_start hs hstep⟩

/-! The pin (R11, R39). -/

/-- A micro-operation that changes the pin is the `H` or the `L` of the new level. -/
theorem doUop_pin_changes (u : Uop) (s : State) (h : (doUop u s).pin ≠ s.pin) :
    ((doUop u s).pin = true ∧ (doUop u s).log = .high :: s.log)
    ∨ ((doUop u s).pin = false ∧ (doUop u s).log = .low :: s.log) := by
  cases u with
  | w => exact absurd rfl h
  | h => exact .inl ⟨rfl, rfl⟩
  | l => exact .inr ⟨rfl, rfl⟩

/-- Settles O42: the moves that change the pin are a symbol's micro-operation and the `L` of `NEW`. -/
theorem pinChangesByPinEventsOnly : Obligations.PinChangesByPinEventsOnly := by
  intro s t hh hstep hpin
  obtain ⟨rest, -, hm⟩ := hostMove_of_step hh hstep
  cases hm with
  | still hq | start hq hs | color c hq | endMark hq | lastWait hq | wait n hq => exact absurd rfl hpin
  | new hq => exact .inr ⟨rfl, .inr rfl⟩
  | uop ch i u bit hq hb =>
    exact (doUop_pin_changes _ { s with stim := rest } hpin).imp_right fun ⟨hp, hl⟩ => ⟨hp, .inl hl⟩

/-! The faultless invariant (R123, R124). -/

/-- The part of the invariant that micro-operations bear on: the default environment, real ticks one to one
with waits, no fault mark. -/
structure Faultless (s : State) : Prop where
  env : s.env = .never
  real : s.realTicks = s.tickno
  marks : s.log.all (· != .tick true) = true

/-- In the default environment no status is a failure, so a micro-operation leaves the state faultless, and
the wire held once it is, or where the micro-operation drives it. -/
theorem Faultless.doUop {s : State} (h : Faultless s) (u : Uop) :
    Faultless (doUop u s) ∧ (s.pinHeld = true ∨ u ≠ .w → (doUop u s).pinHeld = true) := by
  rw [(doUop_performed u s).default h.env]
  refine ⟨⟨h.env, congrArg (· + _) h.real, ?_⟩, ?_⟩
  · have hm := h.marks
    cases u <;> simpa [traceOf, eventOf] using hm
  · simp

/-- An event that is no wait leaves the state faultless. -/
theorem Faultless.of_log_cons {s t : State} (h : Faultless s) {e : Event} (hl : t.log = e :: s.log)
    (he : t.env = s.env) (hr : t.realTicks = t.tickno) (hne : e ≠ .tick true) : Faultless t := by
  refine ⟨he.trans h.env, hr, ?_⟩
  rw [hl, List.all_cons, h.marks]
  simpa using hne

theorem HostMove.keeps_faultless {s t : State} {rest : List Stimulus} (h : HostMove s rest t)
    (hf : Faultless s) (hh : s.seq ≠ .unbound → s.pinHeld = true) :
    Faultless t ∧ (t.seq ≠ .unbound → t.pinHeld = true) := by
  have hf' : Faultless { s with stim := rest } := ⟨hf.env, hf.real, hf.marks⟩
  cases h with
  | still hq => exact ⟨hf', hh⟩
  | new hq =>
    have hn : Faultless (emit .new { s with stim := rest }) := hf'.of_log_cons rfl rfl hf.real nofun
    obtain ⟨⟨he, hr, hm⟩, hheld⟩ := hn.doUop .l
    exact ⟨⟨he, hr, hm⟩, fun _ => hheld (.inr nofun)⟩
  | start hq hs => exact ⟨hf.of_log_cons rfl rfl rfl nofun, fun _ => hh (by rw [hq]; nofun)⟩
  | color c hq | endMark hq => exact ⟨hf.of_log_cons rfl rfl hf.real nofun, fun _ => hh (by rw [hq]; nofun)⟩
  | uop ch i u bit hq hb =>
    obtain ⟨⟨he, hr, hm⟩, hheld⟩ := hf'.doUop ((scheduleOf s.cfg bit).op u)
    exact ⟨⟨he, hr, hm⟩, fun _ => hheld (.inl (hh (by rw [hq]; nofun)))⟩
  | lastWait hq =>
    obtain ⟨hw, hheld⟩ := hf'.doUop .w
    exact ⟨hw.of_log_cons rfl rfl hw.real nofun, fun _ => hheld (.inl (hh (by rw [hq]; nofun)))⟩
  | wait n hq =>
    obtain ⟨⟨he, hr, hm⟩, hheld⟩ := hf'.doUop .w
    exact ⟨⟨he, hr, hm⟩, fun _ => hheld (.inl (hh (by rw [hq]; nofun)))⟩

/-- Settles O48: every move keeps a faultless state faultless and the wire held. -/
theorem stepKeepsFaultlessInvariant : Obligations.StepKeepsFaultlessInvariant := by
  intro s t hi hstep
  obtain ⟨rest, hr, hm⟩ := hostMove_of_step hi.host hstep
  obtain ⟨hf, hheld⟩ := hm.keeps_faultless ⟨hi.env, hi.real, hi.marks⟩ hi.held
  exact ⟨hm.hostOnly hr, hf.env, hheld, hf.real, hf.marks⟩

/-- Settles O49: nothing has failed at the two start states; where the wire is held it carries the pin, and in
the default environment without a fault mark the timer is sound. -/
theorem faultlessInvariantAtReset : Obligations.FaultlessInvariantAtReset := by
  refine ⟨⟨rfl, rfl, fun _ => rfl, rfl, rfl⟩, ⟨rfl, rfl, fun h => absurd rfl h, rfl, rfl⟩,
    fun s hi => ⟨fun hq => ?_, ?_⟩⟩
  · rw [level, if_pos (hi.held hq)]
  · exact timerSound_of_never s hi.env hi.marks

end Sys2Proof.Machine
end

section
/-!
What every operation and every step keeps, a test bench's among them: each is made of the block's own small
changes, so a relation that those meet is met by all. The configuration (R15), the latch (R13), the trace and
the count invariant (R17, U4) follow.
-/
namespace Sys2Proof.Machine

open Sys2Proof.Safety

/-- A relation between a state and a later one that every small change of the block meets, a fetch apart. -/
structure KeptByBlock (R : State → State → Prop) : Prop where
  refl : ∀ s, R s s
  trans : ∀ {s t r}, R s t → R t r → R s r
  setSeq : ∀ s q, R s { s with seq := q }
  doUop : ∀ u s, R s (doUop u s)
  new : ∀ s, R s (emit .new s)
  done : ∀ s, R s (emit (.done .ok) s)
  begin : ∀ s, R s (begin s)

namespace KeptByBlock

variable {R : State → State → Prop}

theorem perform (hR : KeptByBlock R) (us : List Uop) (s : State) : R s (perform us s) := by
  induction us generalizing s with
  | nil => exact hR.refl s
  | cons u us ih => exact hR.trans (hR.doUop u s) (ih (Machine.doUop u s))

theorem sendColor (hR : KeptByBlock R) (c : Color) (s : State) : R s (sendColor c s) := by
  rw [sendColor_eq]
  exact hR.perform _ s

theorem sendGap (hR : KeptByBlock R) (s : State) : R s (sendGap s) :=
  hR.trans (hR.perform _ s) (hR.setSeq _ .idle)

theorem finish (hR : KeptByBlock R) (s : State) : R s (finish s) :=
  hR.trans (hR.trans (hR.sendGap s) (hR.done _)) (hR.setSeq _ .idle)

/-- The fetch loop, where a fetch meets the relation too. -/
theorem sendAll (hR : KeptByBlock R) (hf : ∀ s, R s (fetch s).2) (n : Nat) (s t : State)
    (h : sendAll n s = some t) : R s t := by
  induction n generalizing s with
  | zero => cases h
  | succ n ih =>
    have hs := hf s
    simp only [Machine.sendAll] at h
    rcases ha : fetch s with ⟨a, r⟩
    rw [ha] at h hs
    cases a with
    | none =>
      cases h
      exact hR.trans hs (hR.finish r)
    | some c => exact hR.trans hs (hR.trans (hR.sendColor c r) (ih _ h))

/-- Every operation that completes meets the relation; a fetch must where the operation fetches. -/
theorem exec (hR : KeptByBlock R) (i : Instr) (hf : i = .f ∨ i = .write → ∀ s, R s (fetch s).2)
    (s t : State) (h : exec i s = .next t) : R s t := by
  cases i with
  | new =>
    simp only [Machine.exec, execNew] at h
    split at h <;> cases h
    exact hR.trans (hR.trans (hR.new s) (hR.doUop .l _)) (hR.setSeq _ .idle)
  | write =>
    simp only [Machine.exec, execWrite] at h
    split at h
    · split at h
      · next r hr =>
        cases h
        exact hR.trans (hR.begin s) (hR.sendAll (hf (.inr rfl)) _ _ _ hr)
      · cases h
        exact hR.begin s
    · cases h
  | color c => cases h; exact hR.sendColor c s
  | endSeq => cases h; exact hR.finish s
  | gap => cases h; exact hR.sendGap s
  | byte v | sym1Std | sym0Std | sym1Deg | sym0Deg => cases h; exact hR.perform _ s
  | w => cases h; exact hR.doUop .w s
  | h => cases h; exact hR.doUop .h s
  | l => cases h; exact hR.doUop .l s
  | f => cases h; exact hf (.inl rfl) s

/-- Every action of the sequencer meets the relation, where a fetch does. -/
theorem sequencer (hR : KeptByBlock R) (hf : ∀ s, R s (fetch s).2) (s t : State)
    (h : sequencer s = .next t) : R s t := by
  obtain ⟨-, rfl⟩ | ⟨c, r, -, hr, rfl⟩ | ⟨r, -, hr, rfl⟩ | ⟨ch, i, u, bit, -, -, rfl⟩ | ⟨-, rfl⟩ | ⟨n, -, rfl⟩ :=
    sequencer_cases s t h
  · exact hR.refl t
  · have hs := hf s
    rw [hr] at hs
    exact hR.trans hs (hR.setSeq r _)
  · have hs := hf s
    rw [hr] at hs
    exact hR.trans hs (hR.setSeq r _)
  · exact hR.trans (hR.doUop _ s) (hR.setSeq _ _)
  · exact hR.trans (hR.trans (hR.doUop .w s) (hR.done _)) (hR.setSeq _ .idle)
  · exact hR.trans (hR.doUop .w s) (hR.setSeq _ _)

/-- Every step meets the relation, where a fetch and the use of a stimulus do. -/
theorem step (hR : KeptByBlock R) (hf : ∀ s, R s (fetch s).2) (hst : ∀ s rest, R s { s with stim := rest })
    (s t : State) (h : step s = .next t) : R s t := by
  cases hs : s.stim with
  | nil =>
    rw [step_nil s hs] at h
    exact hR.sequencer hf s t h
  | cons a rest =>
    cases a with
    | new =>
      rw [step_new s rest hs] at h
      exact hR.trans (hst s rest) (hR.exec .new (fun _ => hf) _ t h)
    | start =>
      rw [step_start s rest hs, acceptStart] at h
      split at h <;> cases h
      exact hR.trans (hst s rest) (hR.begin _)
    | pass =>
      rw [step_pass s rest hs] at h
      exact hR.trans (hst s rest) (hR.sequencer hf _ t h)
    | awaitDone =>
      rw [step_awaitDone s rest hs] at h
      split at h
      · exact hR.sequencer hf s t h
      · cases h
        exact hst s rest
    | forbidden k =>
      rw [step_forbidden s k rest hs] at h
      cases h
    | alone p w =>
      cases hd : decode p w with
      | error r =>
        rw [step_alone_error s p w rest r hs hd] at h
        cases h
      | ok i =>
        rw [step_alone_ok s p w rest i hs hd] at h
        exact hR.trans (hst s rest) (hR.exec i (fun _ => hf) _ t h)

end KeptByBlock

/-! The configuration (R15). -/

theorem keptByBlock_cfg : KeptByBlock fun s t => t.cfg = s.cfg where
  refl _ := rfl
  trans hst htr := htr.trans hst
  setSeq _ _ := rfl
  doUop := doUop_cfg
  new _ := rfl
  done _ := rfl
  begin _ := rfl

@[simp] theorem fetch_cfg (s : State) : (fetch s).2.cfg = s.cfg := by
  obtain ⟨c, -, hf⟩ | ⟨-, hf⟩ := fetch_cases s <;> rw [hf]

/-- Settles O40: no small change writes the configuration. -/
theorem configurationNeverChanges : Obligations.ConfigurationNeverChanges :=
  ⟨keptByBlock_cfg.step fetch_cfg (fun _ _ => rfl), fun i => keptByBlock_cfg.exec i fun _ => fetch_cfg⟩

/-! The color latch (R13). -/

theorem keptByBlock_col : KeptByBlock fun s t => t.col = s.col where
  refl _ := rfl
  trans hst htr := htr.trans hst
  setSeq _ _ := rfl
  doUop := doUop_col
  new _ := rfl
  done _ := rfl
  begin _ := rfl

/-- A move outside `FETCH` leaves the latch. -/
theorem HostMove.col_eq {s t : State} {rest : List Stimulus} (h : HostMove s rest t) (hq : s.seq ≠ .fetch) :
    t.col = s.col := by
  cases h with
  | color c hf => exact absurd hf hq
  | uop ch i u bit hs hb => exact doUop_col _ _
  | still | new | start | endMark | lastWait | wait => rfl

/-- Settles O41: no small change but a fetch writes the latch, and a move fetches in `FETCH` alone. -/
theorem latchWrittenByFetchOnly : Obligations.LatchWrittenByFetchOnly := by
  refine ⟨fun i s t hf hw => keptByBlock_col.exec i (fun h => (h.elim hf hw).elim) s t, fun s t hh hstep hq => ?_⟩
  obtain ⟨rest, -, hm⟩ := hostMove_of_step hh hstep
  exact hm.col_eq hq

/-! The trace (R17). -/

/-- A state whose log has one event more has the longer trace. -/
theorem trace_prefix_of_log_cons {s t : State} {e : Event} (h : t.log = e :: s.log) : s.trace <+: t.trace :=
  ⟨[e], (trace_of_log_cons s t e h).symm⟩

theorem keptByBlock_trace : KeptByBlock fun s t => s.trace <+: t.trace where
  refl _ := List.prefix_refl _
  trans hst htr := hst.trans htr
  setSeq _ _ := List.prefix_refl _
  doUop u s :=
    have ⟨_, he, _⟩ := doUop_log u s
    trace_prefix_of_log_cons he
  new _ := trace_prefix_of_log_cons rfl
  done _ := trace_prefix_of_log_cons rfl
  begin _ := trace_prefix_of_log_cons rfl

/-- A fetch adds one event, its answer. -/
theorem fetch_log (s : State) : (fetch s).2.log = .fetched (fetch s).1 :: s.log := by
  obtain ⟨c, -, hf⟩ | ⟨-, hf⟩ := fetch_cases s <;> rw [hf]

/-- Settles O43: every small change adds events behind those of the trace. -/
theorem traceOnlyGrows : Obligations.TraceOnlyGrows :=
  keptByBlock_trace.step (fun s => trace_prefix_of_log_cons (fetch_log s)) fun _ _ => List.prefix_refl _

/-! The count invariant (R17, U4). -/

/-- The ticks since the last `start` after one event more. -/
theorem ticksSinceStart_of_log_cons {s t : State} {e : Event} (h : t.log = e :: s.log) :
    ticksSinceStart t.trace = tickStep (ticksSinceStart s.trace) e := by
  rw [trace_of_log_cons s t e h, ticksSinceStart, List.foldl_append]
  rfl

/-- An event that is neither a tick nor `start` keeps the counts. -/
theorem countInv_of_log_cons {s t : State} (h : CountInv s) {e : Event} (hl : t.log = e :: s.log)
    (hn : t.tickno = s.tickno) (hr : t.realTicks = s.realTicks) (he : ∀ n, tickStep n e = n) : CountInv t :=
  ⟨by rw [ticksSinceStart_of_log_cons hl, he, hn, h.tickno], by rw [hn, hr]; exact h.real⟩

/-- A wait counts one tick, and took at most one real one (U4). -/
theorem countInv_opW {s : State} (h : CountInv s) : CountInv (opW s) := by
  refine ⟨?_, ?_⟩
  · rw [ticksSinceStart_of_log_cons (opW_log s), ← h.tickno]
    rfl
  · have hreal := (doUop_performed .w s).real.2
    exact hreal.trans (Nat.add_le_add_right h.real 1)

theorem keptByBlock_countInv : KeptByBlock fun s t => CountInv s → CountInv t where
  refl _ := id
  trans hst htr := htr ∘ hst
  setSeq _ _ h := ⟨h.tickno, h.real⟩
  doUop u s h := by
    cases u with
    | w => exact countInv_opW h
    | h => exact countInv_of_log_cons h rfl rfl rfl fun _ => rfl
    | l => exact countInv_of_log_cons h rfl rfl rfl fun _ => rfl
  new _ h := countInv_of_log_cons h rfl rfl rfl fun _ => rfl
  done _ h := countInv_of_log_cons h rfl rfl rfl fun _ => rfl
  begin s h := ⟨(ticksSinceStart_of_log_cons (begin_log s)).symm, le_refl 0⟩

/-- A fetch takes no tick (R6). -/
theorem countInv_fetch {s : State} (h : CountInv s) : CountInv (fetch s).2 := by
  obtain ⟨c, -, hf⟩ | ⟨-, hf⟩ := fetch_cases s
  · rw [hf]
    exact countInv_of_log_cons h rfl rfl rfl fun _ => rfl
  · rw [hf]
    exact countInv_of_log_cons h rfl rfl rfl fun _ => rfl

/-- Settles O46: a wait counts one tick in both, `start` sets both back, and no other change counts. -/
theorem stepKeepsCountInvariant : Obligations.StepKeepsCountInvariant := fun s t hi hstep =>
  keptByBlock_countInv.step (fun _ => countInv_fetch) (fun _ _ h => ⟨h.tickno, h.real⟩) s t hstep hi

/-- Settles O47: no wait has been performed at the two start states. -/
theorem countInvariantAtReset : Obligations.CountInvariantAtReset :=
  ⟨⟨rfl, le_refl 0⟩, ⟨rfl, le_refl 0⟩⟩

end Sys2Proof.Machine
end

section
/-!
The micro-operations (R71 to R74): each always completes and changes what its rule names.
-/
namespace Sys2Proof.Machine

open Sys2Proof.Safety

/-- A capability call takes the next status of its plan. -/
theorem nextStatus_pop (p : FailPlan) : NextStatus p (p.pop).1 (p.pop).2 := by
  obtain ⟨listed, after⟩ := p
  cases listed <;> exact ⟨rfl, rfl⟩

/-- In the default environment no call fails and no plan changes. -/
theorem pop_of_never {s : State} (h : s.env = .never) :
    s.env.wait.pop = (false, s.env.wait) ∧ s.env.high.pop = (false, s.env.high)
    ∧ s.env.low.pop = (false, s.env.low) := by
  rw [h]
  exact ⟨rfl, rfl, rfl⟩

/-- Settles O6: `W` takes the wait's next status, and its real ticks are one, or the free value where it
failed. -/
theorem tickWaitResult : Obligations.TickWaitResult := by
  intro s
  refine ⟨(s.env.wait.pop).1,
    if (s.env.wait.pop).1 then (if Config.failedWaitTookTick s.log then 1 else 0) else 1,
    (s.env.wait.pop).2, rfl, nextStatus_pop _,
    Nat.le_of_add_le_add_left (doUop_performed .w s).real.2, fun hok => by rw [hok]; rfl, fun he => ?_⟩
  rw [(pop_of_never he).1]
  exact ⟨rfl, rfl⟩

/-- Settles O7: `H` takes the status of the pin's next high drive and drops it; a schedule performs it on a low
pin. -/
theorem driveHighResult : Obligations.DriveHighResult := by
  refine ⟨rfl, fun s => ⟨(s.env.high.pop).1, (s.env.high.pop).2, rfl, nextStatus_pop _, fun he => ?_⟩,
    fun d v b u => (symtab_op_level d v b u).1⟩
  rw [(pop_of_never he).2.1]
  exact ⟨rfl, rfl⟩

/-- `NEW` in `UNBOUND` is its event and one `L` (R101). -/
theorem exec_new {s : State} (hq : s.seq = .unbound) :
    exec .new s = .next { opL (emit .new s) with seq := .idle } := by
  rw [exec, execNew, if_pos hq]

/-- Settles O8: `L` takes the status of the pin's next low drive and drops it; `NEW` performs it after its
event; the degraded 0 symbol is the same in both tables. -/
theorem driveLowResult : Obligations.DriveLowResult := by
  refine ⟨rfl, fun s => ⟨(s.env.low.pop).1, (s.env.low.pop).2, rfl, nextStatus_pop _, fun he => ?_⟩,
    fun s hq => exec_new hq, fun d => by cases d <;> exact ⟨rfl, rfl⟩⟩
  rw [(pop_of_never he).2.2]
  exact ⟨rfl, rfl⟩

/-- Settles O19: `NEW` is its event and one `L`, whose status is dropped. -/
theorem constructionResult : Obligations.ConstructionResult := by
  intro s hq
  refine ⟨(s.env.low.pop).1, (s.env.low.pop).2, exec_new hq, nextStatus_pop _, fun he => ?_⟩
  rw [(pop_of_never he).2.2]
  exact ⟨rfl, rfl⟩

/-- The fields of the color an item word decodes to, by arithmetic (R56). -/
theorem decodeItem_fields {w : ItemWord} (h : ¬ 2 ^ 24 ≤ w.toNat) :
    ∃ c : Color, decodeItem w = some c ∧ c.r.toNat = w.toNat / 2 ^ 16
      ∧ c.g.toNat = w.toNat / 2 ^ 8 % 2 ^ 8 ∧ c.b.toNat = w.toNat % 2 ^ 8 := by
  refine ⟨_, by rw [decodeItem_eq, if_neg h], ?_, BitVec.toNat_ofNat _ _, BitVec.toNat_ofNat _ _⟩
  exact Nat.mod_eq_of_lt (by omega)

/-- Settles O9: the fetch reads the source's next word, which is an end mark from `2 ^ 24` up and three bytes
below; a used-up source answers the end mark or the next color of one that never ends. -/
theorem fetchResult : Obligations.FetchResult := by
  refine ⟨fun s w ws hw => ?_, fun s hs => ?_, fun s n hs => ⟨Config.endlessColor n, ?_⟩⟩
  · split
    · next h =>
      rw [exec, execF, fetch_end s w ws hw (by rw [decodeItem_eq, if_pos h])]
      rfl
    · next h =>
      obtain ⟨c, hc, hr, hg, hb⟩ := decodeItem_fields h
      exact ⟨c, hr, hg, hb, by rw [exec, execF, fetch_color s w ws c hw hc]⟩
  · rw [exec, execF, fetch_ends s (by rw [hs]) (by rw [hs]), atEnd, hs]
  · simp [exec, execF, fetch, Source.pop, hs]

end Sys2Proof.Machine
end

section
/-!
The symbols and their tables (R81 to R90): schedules, waveforms, the two degraded tables, and the selection of
a bit.
-/
namespace Sys2Proof.Machine

open Sys2Proof.Safety

/-- Settles O11: the result of any symbol is that of the schedule its build's table holds; the words and
waveforms are the table's own. -/
theorem degradedSymbolsResult : Obligations.DegradedSymbolsResult := by
  refine ⟨fun s hd => ⟨_, rfl, ?_⟩, fun s hd => ⟨_, rfl, ?_⟩, fun s => ⟨_, rfl, ?_⟩, by decide⟩
  · have h := sendSymbol_result .deg true s
    rw [hd] at h
    exact h
  · have h := sendSymbol_result .deg true s
    rw [hd] at h
    exact h
  · have h := sendSymbol_result .deg false s
    rw [show symtab s.cfg.degTable .deg false = ⟨.w, .h, .l, .w, .w⟩ by cases s.cfg.degTable <;> rfl] at h
    exact h

/-- Every row of the table begins `W H` and has its `H` before its `L` (R87). -/
theorem symtab_order (d : DegTable) (v : Variant) (b : Bool) :
    (symtab d v b).u0 = .w ∧ (symtab d v b).u1 = .h
    ∧ (symtab d v b).toList.idxOf .h < (symtab d v b).toList.idxOf .l ∧ (symtab d v b).wf = true := by
  cases d <;> cases v <;> cases b <;> decide

/-- Settles O14: the counts and the order of every row of the table. -/
theorem symbolScheduleLaws : Obligations.SymbolScheduleLaws := by
  intro d v b
  obtain ⟨hw, hh, hl, hlen, hlow⟩ := symtab_counts d v b
  obtain ⟨h0, h1, hidx, hwf⟩ := symtab_order d v b
  exact ⟨hlen, hw, hh, hl, h0, h1, hidx, hlow, hwf⟩

/-- Settles O16: the waits between `H` and `L`, and from `L` to the next symbol's `H`, row by row. -/
theorem symbolTimesInTicks : Obligations.SymbolTimesInTicks := by
  refine ⟨rfl, rfl, rfl, rfl, fun v b b' => ?_⟩
  cases v <;> cases b <;> cases b' <;> rfl

/-- Settles O18: each row's waveform. -/
theorem symbolWaveforms : Obligations.SymbolWaveforms := ⟨rfl, rfl, rfl, rfl, rfl⟩

/-! Bit selection (R88). -/

/-- After `j` shifts bit `i + j` of the channel value stands at place `i + j`. -/
theorem shiftedLeft_getLsbD (v : Byte) (fill : Nat → Bool) (i j : Nat) (h : i + j < 8) :
    (shiftedLeft v fill j).getLsbD (i + j) = v.getLsbD i := by
  induction j with
  | zero => rfl
  | succ j ih =>
    rw [shiftedLeft, BitVec.getLsbD_shiftConcat, ← ih (by omega), ← Nat.add_assoc]
    simp
    omega

/-- Settles O15: a bit is tested by division and remainder; bit 7 of the shifted register has come from
bit `7 - j`. -/
theorem bitSelectionIsArithmetic : Obligations.BitSelectionIsArithmetic := by
  refine ⟨fun v i => ?_, fun v fill j => ?_⟩
  · rw [bitAt, BitVec.getLsbD, Nat.testBit_eq_decide_div_mod_eq]
  · have hj : j.rev.val + j.val = 7 := by rw [Fin.val_rev]; omega
    rw [bitAt, ← shiftedLeft_getLsbD v fill j.rev.val j.val (by omega), hj]

/-! The degraded tables (R90). -/

/-- The schedules of R87: after `W H` the `L` stands at one of three places. -/
theorem wf_iff (s : Schedule) : s.wf = true ↔
    s = ⟨.w, .h, .l, .w, .w⟩ ∨ s = ⟨.w, .h, .w, .l, .w⟩ ∨ s = ⟨.w, .h, .w, .w, .l⟩ := by
  constructor
  · intro h
    obtain ⟨a, b, c, d, e⟩ := s
    simp only [Schedule.wf, Bool.and_eq_true, beq_iff_eq] at h
    obtain ⟨⟨hcount, rfl⟩, rfl⟩ := h
    cases c <;> cases d <;> cases e <;> revert hcount <;> decide
  · rintro (rfl | rfl | rfl) <;> rfl

/-- Of the nine tables of such schedules the constraints leave two. -/
theorem degAdmissible_iff (z o : Schedule) : degAdmissible z o = true ↔
    z = ⟨.w, .h, .l, .w, .w⟩ ∧ (o = ⟨.w, .h, .w, .w, .l⟩ ∨ o = ⟨.w, .h, .w, .l, .w⟩) := by
  constructor
  · intro h
    have hwf : z.wf = true ∧ o.wf = true := by
      simp only [degAdmissible, Bool.and_eq_true] at h
      obtain ⟨⟨⟨⟨hwf, -⟩, -⟩, -⟩, -⟩ := h
      exact hwf
    obtain ⟨hz, ho⟩ := hwf
    rw [wf_iff] at hz ho
    rcases hz with rfl | rfl | rfl <;> rcases ho with rfl | rfl | rfl <;> revert h <;> decide
  · rintro ⟨rfl, rfl | rfl⟩ <;> rfl

/-- A table's own words are accepted and stand for it. -/
theorem degTableOf_encode (d : DegTable) :
    degTableOf (encodeSchedule (symtab d .deg false)) (encodeSchedule (symtab d .deg true)) = some d := by
  cases d <;> rfl

/-- Words that are accepted are those of the table they stand for. -/
theorem words_of_degTableOf {w0 w1 : ScheduleWord} {d : DegTable} (h : degTableOf w0 w1 = some d) :
    w0 = encodeSchedule (symtab d .deg false) ∧ w1 = encodeSchedule (symtab d .deg true) := by
  unfold degTableOf at h
  split at h
  · next z o hz ho =>
    rw [← encodeSchedule_of_decodeSchedule w0 z hz, ← encodeSchedule_of_decodeSchedule w1 o ho]
    split at h
    · next hadm =>
      obtain ⟨rfl, rfl | rfl⟩ := (degAdmissible_iff z o).1 hadm
      · cases h
        exact ⟨rfl, rfl⟩
      · cases h
        exact ⟨rfl, rfl⟩
    · cases h
  · cases h

/-- Settles O17: the constraints leave two tables, and words and schedules correspond one to one. -/
theorem exactlyTwoDegradedTables : Obligations.ExactlyTwoDegradedTables := by
  refine ⟨degAdmissible_iff, fun d b => by cases d <;> cases b <;> rfl, fun w0 w1 d => ⟨words_of_degTableOf, ?_⟩⟩
  rintro ⟨rfl, rfl⟩
  exact degTableOf_encode d

end Sys2Proof.Machine
end

section
/-!
Transactions as one operation and as a run of the step function (R102, R105, R107 to R111).
-/
namespace Sys2Proof.Machine

open Sys2Proof.Safety

/-- Settles O20: the gap is its waits, performed and then left for `IDLE`. -/
theorem gapResult : Obligations.GapResult := by
  intro s
  have hp : Performed (gapOps s.cfg) s (perform (gapOps s.cfg) s) := perform_performed _ s
  refine ⟨sendGap s, rfl, ?_, rfl, hp.pin.trans (levelAfter_waits _ _), ?_⟩
  · show Performed (gapOps s.cfg) s { perform (gapOps s.cfg) s with seq := s.seq }
    rw [← hp.seq]
    exact hp
  · rw [show (sendGap s).tickno = _ from hp.tickno, gapOps, List.count_replicate_self]

/-! `WRITE` on a source that ends. -/

/-- The trace of a transaction is `start` and what the fetch loop shows. -/
theorem frameTrace_eq (cfg : Config) (cs : List Color) : frameTrace cfg cs = .start :: bodyTrace cfg cs := rfl

/-- The events of a transaction in every fault environment, and in the default one. -/
theorem sent_begin_trace {s t : State} {cs : List Color} (h : Sent cs (begin s) t) :
    ∃ es, t.trace = s.trace ++ es ∧ es.map unmark = frameTrace s.cfg cs
      ∧ (s.env = .never → es = frameTrace s.cfg cs) := by
  obtain ⟨es, he, hm⟩ := h.trace
  have hb : (begin s).trace = s.trace ++ [.start] := trace_of_log_cons _ _ _ rfl
  refine ⟨.start :: es, ?_, ?_, fun hs => ?_⟩
  · rw [he, hb, List.append_assoc]
    rfl
  · rw [List.map_cons, hm]
    rfl
  · obtain ⟨-, ht, -, -⟩ := h.never hs
    rw [frameTrace_eq, List.append_cancel_left (he.symm.trans ht)]
    rfl

/-- The ticks of a transaction. -/
theorem sent_begin_tickno {s t : State} {cs : List Color} (h : Sent cs (begin s) t) :
    t.tickno = s.cfg.colorTicks * cs.length + s.cfg.gapTicks :=
  h.tickno.trans (Nat.zero_add _)

/-- Settles O22: `WRITE` is the fetch loop, which sends `cs`. -/
theorem writeResult : Obligations.WriteResult := by
  intro s cs hq hc
  obtain ⟨t, ht, hsent⟩ := exec_write_sent s cs hq hc
  obtain ⟨es, htrace, hmarks, hnever⟩ := sent_begin_trace hsent
  have htick := sent_begin_tickno hsent
  refine ⟨t, es, ht, hsent.seq, hsent.cfg, hsent.stim, hsent.source, hsent.col, hsent.pin, ?_, fun hf => ?_, ?_,
    htrace, hmarks, fun he => ?_⟩
  · rw [htick, Config.colorTicks, Config.colorBitCount, s.cfg.symTicks_eq]
  · rw [htick, (wireFormat_counts s.cfg hf).2.1]
  · rw [hsent.tickno]
    exact hsent.real.2
  · obtain ⟨henv, -, hreal, hheld⟩ := hsent.never he
    exact ⟨henv, hnever he, hreal.trans hsent.tickno.symm, hheld⟩

/-- Settles O25: each transaction's trace is that of the build and the sequence. -/
theorem sameSequenceSameTrace : Obligations.SameSequenceSameTrace := by
  intro s s' cs hq hq' hcfg hc hc'
  obtain ⟨t, ht, hsent⟩ := exec_write_sent s cs hq hc
  obtain ⟨t', ht', hsent'⟩ := exec_write_sent s' cs hq' hc'
  obtain ⟨es, htrace, hmarks, hnever⟩ := sent_begin_trace hsent
  obtain ⟨es', htrace', hmarks', hnever'⟩ := sent_begin_trace hsent'
  refine ⟨t, t', es, es', ht, ht', htrace, htrace', ?_, ?_, fun he he' => ?_⟩
  · rw [hmarks, hmarks', hcfg]
  · rw [sent_begin_tickno hsent, sent_begin_tickno hsent', hcfg]
  · rw [hnever he, hnever' he', hcfg]

/-- The `start` strobe in `IDLE` begins a transaction (R106). -/
theorem step_start_idle {s : State} {rest : List Stimulus} (hs : s.stim = .start :: rest) (hq : s.seq = .idle) :
    step s = .next (begin { s with stim := rest }) := by
  rw [step_start s rest hs]
  exact if_pos hq

/-- From the `start` strobe on, the step function ends a transaction where the fetch loop does (R108). -/
theorem run_transaction {s : State} {rest : List Stimulus} {cs : List Color} (hs : s.stim = .start :: rest)
    (hq : s.seq = .idle) (hw : Waiting { s with stim := rest })
    (hc : colorsOf s.source.tail s.source.words = some cs) :
    ∃ t, exec .write { s with stim := rest } = .next t ∧ Sent cs (begin { s with stim := rest }) t
      ∧ Host.Core.run core ((s.cfg.symOps * s.cfg.colorBitCount + 1) * cs.length + s.cfg.gapTicks + 2) s
        = .next t := by
  obtain ⟨t, ht, hsent⟩ := exec_write_sent { s with stim := rest } cs hq hc
  obtain ⟨t', ht', hrun⟩ := run_fetches s.source.words (begin { s with stim := rest }) cs rfl rfl hw hc
  have heq : exec .write { s with stim := rest } = .next t' := by
    rw [exec, execWrite, if_pos hq, ht']
  cases ht.symm.trans heq
  refine ⟨t, ht, hsent, ?_⟩
  rw [show ∀ n, n + 2 = 1 + (n + 1) by omega,
    run_add _ _ _ _ (run_one _ _ (step_start_idle hs hq))]
  exact hrun

/-- Settles O24: the step function's run of a transaction ends in the state of `WRITE`. -/
theorem stepFunctionAgreesWithWrite : Obligations.StepFunctionAgreesWithWrite := by
  intro s cs hq hs hc
  obtain ⟨t, ht, hsent, hrun⟩ := run_transaction hs hq (.inl rfl) hc
  obtain ⟨es, htrace, hmarks, -⟩ := sent_begin_trace hsent
  exact ⟨t, es, ht, hrun, hsent.seq, htrace, hmarks⟩

/-- Settles O26: each request meets a state without a transition for it, or has none in any. -/
theorem requestsWithoutStep : Obligations.RequestsWithoutStep := by
  refine ⟨fun s hq => if_neg hq, fun s hq => if_neg hq, fun s rest hs hq => ?_, fun s rest hs hq => ?_,
    fun s k rest hs => step_forbidden s k rest hs⟩
  · rw [step_start s rest hs]
    exact if_neg hq
  · rw [step_new s rest hs]
    exact if_neg hq

end Sys2Proof.Machine
end

section
/-!
The counts of a transaction (R109) and its low time at `done` (R110).
-/
namespace Sys2Proof.Machine

open Sys2Proof.Safety

/-! What each color adds to a count. -/

/-- A count over a transaction is `N` times that of a color, and the gap's with `start`, `F(end)` and `done`. -/
theorem countP_frameTrace (cfg : Config) (cs : List Color) (p : Event → Bool) (n : Nat)
    (h : ∀ c, (colorTrace cfg c).countP p = n) :
    (frameTrace cfg cs).countP p = n * cs.length
      + ((traceOf (gapOps cfg)).countP p + [.start, .fetched none, .done .ok].countP p) := by
  have hcs : (cs.flatMap (colorTrace cfg)).countP p = n * cs.length := by
    rw [List.countP_flatMap, show List.countP p ∘ colorTrace cfg = fun _ => n from funext h, List.map_const',
      List.sum_replicate, smul_eq_mul, Nat.mul_comm]
  simp only [frameTrace, List.countP_cons, List.countP_append, hcs, List.countP_nil]
  omega

/-- The ticks, the `H`, the `L` and the fetches of a color (R103). -/
theorem colorTrace_counts (cfg : Config) (c : Color) :
    (colorTrace cfg c).countP isTick = cfg.colorTicks ∧ (colorTrace cfg c).count .high = cfg.colorBitCount
    ∧ (colorTrace cfg c).count .low = cfg.colorBitCount ∧ (colorTrace cfg c).countP isFetch = 1 := by
  obtain ⟨hw, hh, hl, -, -⟩ := colorOps_counts cfg c
  refine ⟨?_, ?_, ?_, ?_⟩
  · rw [colorTrace, List.countP_cons, traceOf_ticks, hw]
    rfl
  · simp [colorTrace, traceOf_highs, hh]
  · simp [colorTrace, traceOf_lows, hl]
  · rw [colorTrace, List.countP_cons, traceOf_fetches]
    rfl

/-- The gap is waits: its ticks are `GAP_TICKS`, and it has no pin event and no fetch (R105). -/
theorem gap_counts (cfg : Config) :
    (traceOf (gapOps cfg)).countP isTick = cfg.gapTicks ∧ (traceOf (gapOps cfg)).count .high = 0
    ∧ (traceOf (gapOps cfg)).count .low = 0 ∧ (traceOf (gapOps cfg)).countP isFetch = 0 := by
  refine ⟨?_, ?_, ?_, traceOf_fetches _⟩
  · rw [traceOf_ticks, gapOps, List.count_replicate_self]
  · rw [traceOf_highs, gapOps, List.count_replicate]
    rfl
  · rw [traceOf_lows, gapOps, List.count_replicate]
    rfl

/-- `Frame(cs)` is the symbols of its bits and then the gap (R107). -/
theorem frameOps_eq (cfg : Config) (cs : List Color) :
    frameOps cfg cs = symbolOps cfg (cs.flatMap (colorBits cfg)) ++ gapOps cfg := by
  rw [frameOps, flatMap_colorOps]

/-- The symbols of a frame are five micro-operations for each bit. -/
theorem symbolOps_frame_length (cfg : Config) (cs : List Color) :
    (symbolOps cfg (cs.flatMap (colorBits cfg))).length = 5 * (cfg.colorBitCount * cs.length) := by
  rw [(symbolOps_counts cfg _).2.2.2.1, flatMap_colorBits_length]

/-- Settles O23: the counts of the colors and the gap; the first `5 k` micro-operations are `k` symbols. -/
theorem transactionCounts : Obligations.TransactionCounts := by
  intro cfg cs
  obtain ⟨gw, gh, gl, gf⟩ := gap_counts cfg
  have hlen := symbolOps_frame_length cfg cs
  refine ⟨?_, ?_, ?_, ?_, ?_, fun k hk => ?_, ?_, fun hf => ?_, ⟨rfl, rfl⟩, rfl⟩
  · rw [countP_frameTrace cfg cs _ _ fun c => (colorTrace_counts cfg c).1, gw]
    rfl
  · rw [List.count, countP_frameTrace cfg cs _ _ fun c => (colorTrace_counts cfg c).2.1, ← List.count, gh]
    rfl
  · rw [List.count, countP_frameTrace cfg cs _ _ fun c => (colorTrace_counts cfg c).2.2.1, ← List.count, gl]
    rfl
  · rw [countP_frameTrace cfg cs _ _ fun c => (colorTrace_counts cfg c).2.2.2, gf, Nat.one_mul]
    rfl
  · rw [frameOps_eq, List.length_append, hlen, gapOps, List.length_replicate, Config.symOps, cfg.symTicks_eq,
      Nat.mul_assoc]
  · rw [frameOps_eq, List.take_append_of_le_length (by omega), symbolOps_take, (symbolOps_counts cfg _).1,
      List.length_take, flatMap_colorBits_length, Nat.min_eq_left hk]
  · rw [frameOps_eq, ← hlen, List.drop_left]
    rfl
  · obtain ⟨hbits, hticks, hops⟩ := wireFormat_counts cfg hf
    exact ⟨hticks, hbits, by rw [hops, hbits]⟩

/-! The low time at `done` (R110). -/

/-- The whole ticks after the `L` of a bit's symbol, to the symbol's end. -/
def lowTicks (cfg : Config) (bit : Bool) : Nat := ticksSinceLow (traceOf (scheduleOf cfg bit).toList)

/-- A symbol sets the low time back at its `L`, whatever it was. -/
theorem lowStep_symbol (cfg : Config) (bit : Bool) (n : Nat) :
    (traceOf (scheduleOf cfg bit).toList).foldl lowStep n = lowTicks cfg bit := by
  unfold lowTicks scheduleOf
  generalize cfg.degTable = d
  generalize cfg.variant = v
  cases d <;> cases v <;> cases bit <;> rfl

/-- After some symbols the low time is that of the last. -/
theorem lowStep_symbols (cfg : Config) (bs : List Bool) (bit : Bool) (n : Nat) (h : bs.getLast? = some bit) :
    (traceOf (symbolOps cfg bs)).foldl lowStep n = lowTicks cfg bit := by
  obtain ⟨init, rfl⟩ := List.getLast?_eq_some_iff.1 h
  rw [symbolOps_append, traceOf_append, List.foldl_append,
    show symbolOps cfg [bit] = (scheduleOf cfg bit).toList from List.append_nil _]
  exact lowStep_symbol cfg bit _

/-- The end mark, the gap and `done` add the gap's ticks to the low time. -/
theorem lowStep_frameEnd (cfg : Config) (n : Nat) :
    (Event.fetched none :: traceOf (gapOps cfg) ++ [Event.done .ok]).foldl lowStep n = n + cfg.gapTicks := by
  rw [List.cons_append, List.foldl_cons, List.foldl_append, gapOps, lowStep_waits]
  rfl

/-- The low time at `done` is that of the last bit and the gap. -/
theorem ticksSinceLow_frame (cfg : Config) (cs : List Color) (c : Color) (bit : Bool)
    (h : (colorBits cfg c).getLast? = some bit) :
    ticksSinceLow (frameTrace cfg (cs ++ [c])) = cfg.gapTicks + lowTicks cfg bit := by
  have hsplit : frameTrace cfg (cs ++ [c])
      = (.start :: cs.flatMap (colorTrace cfg) ++ [.fetched (some c)]) ++ traceOf (symbolOps cfg (colorBits cfg c))
        ++ (.fetched none :: traceOf (gapOps cfg) ++ [.done .ok]) := by
    simp [frameTrace, colorTrace, colorOps_eq_symbolOps]
  rw [hsplit, ticksSinceLow_append, lowStep_frameEnd, ticksSinceLow_append, lowStep_symbols cfg _ bit _ h,
    Nat.add_comm]

/-- In the wire format of this hardware the last bit of a color is bit 0 of its blue (R31, R32). -/
theorem colorBits_getLast? (cfg : Config) (c : Color) (h : cfg.wireFormat) :
    (colorBits cfg c).getLast? = some (c.b.getLsbD 0) := by
  rw [List.getLast?_eq_getElem?, colorBits_length, (wireFormat_counts cfg h).1]
  exact colorBits_getElem? cfg c h (by decide)

/-- Settles O27: the last symbol's low ticks, row by row, and the gap's. -/
theorem lowTimeAtDone : Obligations.LowTimeAtDone := by
  intro cfg cs
  refine ⟨?_, ?_, colorBits_getLast? cfg, fun c bit h => ?_⟩
  · rw [List.count, countP_frameTrace cfg [] _ _ fun c => (colorTrace_counts cfg c).2.2.1, ← List.count,
      (gap_counts cfg).2.2.1]
    rfl
  · exact (lowStep_frameEnd cfg 0).trans (Nat.zero_add _)
  · rw [ticksSinceLow_frame cfg cs c bit h, lowTicks, scheduleOf]
    generalize cfg.degTable = d
    generalize cfg.variant = v
    cases d <;> cases v <;> cases bit <;> rfl

end Sys2Proof.Machine
end

section
/-!
A script of writes (R61): each runs as a transaction, and the reference receiver reads all colors back.
-/
namespace Sys2Proof.Machine

open Sys2Proof.Safety

/-! The items of a sequence (R61, R74). -/

/-- The items of a `write` yield its colors, whatever follows. -/
theorem colorsOf_write (tail : Tail) (cs : List Color) (ws : List ItemWord) :
    colorsOf tail ((ScriptLine.write cs).words ++ ws) = some cs := by
  induction cs with
  | nil => simp [ScriptLine.words, colorsOf]
  | cons c cs ih =>
    simp only [ScriptLine.words, List.map_cons, List.cons_append] at ih ⊢
    rw [colorsOf, decodeItem_colorWord]
    simp only [ih, Option.map_some]

/-- After the items of a `write` come those that follow. -/
theorem wordsAfter_write (cs : List Color) (ws : List ItemWord) :
    wordsAfter ((ScriptLine.write cs).words ++ ws) = ws := by
  induction cs with
  | nil => simp [ScriptLine.words, wordsAfter]
  | cons c cs ih =>
    simp only [ScriptLine.words, List.map_cons, List.cons_append] at ih ⊢
    rw [wordsAfter, decodeItem_colorWord]
    exact ih

/-! Writes one after another. -/

/-- The block idle in the default environment, with the sequences `css` still to be written, one after another. -/
structure ReadyToWrite (css : List (List Color)) (s : State) : Prop where
  seq : s.seq = .idle
  pin : s.pin = false
  env : s.env = .never
  stim : s.stim = css.flatMap fun _ => [.start, .awaitDone]
  words : s.source.words = css.flatMap fun cs => (ScriptLine.write cs).words

/-- One write runs as a transaction and its wait for `done`. -/
theorem run_write {cs : List Color} {css : List (List Color)} {s : State} (h : ReadyToWrite (cs :: css) s) :
    ∃ k t, Host.Core.run core k s = .next t ∧ ReadyToWrite css t ∧ t.cfg = s.cfg
      ∧ t.trace = s.trace ++ frameTrace s.cfg cs := by
  have hs : s.stim = .start :: (.awaitDone :: css.flatMap fun _ => [.start, .awaitDone]) := h.stim
  have hc : colorsOf s.source.tail s.source.words = some cs := by
    rw [h.words]
    exact colorsOf_write _ cs _
  obtain ⟨t, -, hsent, hrun⟩ := run_transaction hs h.seq (.inr ⟨_, rfl⟩) hc
  obtain ⟨henv, -, -, -⟩ := hsent.never h.env
  obtain ⟨es, htrace, -, hnever⟩ := sent_begin_trace hsent
  have hwait : step t = .next { t with stim := css.flatMap fun _ => [.start, .awaitDone] } := by
    rw [step_awaitDone t _ hsent.stim, if_neg (by simp [busy, hsent.seq])]
  refine ⟨_ + 1, _, (run_add _ 1 _ _ hrun).trans (run_one _ _ hwait), ⟨hsent.seq, ?_, henv, rfl, ?_⟩,
    hsent.cfg, ?_⟩
  · refine hsent.pin.trans ?_
    split
    · exact h.pin
    · rfl
  · have hsrc := congrArg Source.words hsent.source
    refine hsrc.trans ?_
    show wordsAfter s.source.words = _
    rw [h.words]
    exact wordsAfter_write cs _
  · exact htrace.trans (by rw [hnever h.env]; rfl)

/-- All writes run, one transaction after another. -/
theorem run_writes {css : List (List Color)} {s : State} (h : ReadyToWrite css s) :
    ∃ k t, Host.Core.run core k s = .next t ∧ ReadyToWrite [] t
      ∧ t.trace = s.trace ++ css.flatMap (frameTrace s.cfg) := by
  induction css generalizing s with
  | nil => exact ⟨0, s, rfl, h, by simp⟩
  | cons cs css ih =>
    obtain ⟨k, r, hrun, hr, hcfg, htrace⟩ := run_write h
    obtain ⟨m, t, hrun', ht, htrace'⟩ := ih hr
    refine ⟨k + m, t, (run_add k m s r hrun).trans hrun', ht, ?_⟩
    rw [htrace', htrace, hcfg, List.append_assoc, List.flatMap_cons]

/-- The receiver reads the bits of transactions one after another. -/
theorem receiveBits_frames (cfg : Config) (css : List (List Color)) :
    receiveBits (css.flatMap (frameTrace cfg)) = (css.flatten.flatMap (colorBits cfg)).map (readAs cfg) := by
  induction css with
  | nil => rfl
  | cons cs css ih =>
    rw [List.flatMap_cons, receiveBits_frame, ih, List.flatten_cons, List.flatMap_append, List.map_append]

/-- The receiver reads back the colors of transactions one after another, after `NEW`. -/
theorem receive_frames (cfg : Config) (css : List (List Color)) (hf : cfg.wireFormat)
    (hd : cfg.degTable = .zeroShifts) :
    receive ([.new, .low] ++ css.flatMap (frameTrace cfg)) = css.flatten := by
  refine receive_of_bits cfg _ _ hf ?_
  show receiveBits (css.flatMap (frameTrace cfg)) = _
  rw [receiveBits_frames, funext (readAs_eq_self cfg (.inr hd)), List.map_id']

/-- The state of a script of writes after its `new`. -/
theorem step_script_new (v : Variant) (css : List (List Color)) : ∃ s,
    step (Script.load ⟨v, .new :: css.map .write⟩) = .next s ∧ ReadyToWrite css s
      ∧ s.cfg = Script.config ⟨v, .new :: css.map .write⟩ ∧ s.trace = [.new, .low] := by
  have hs : (Script.load ⟨v, .new :: css.map .write⟩).stim
      = .new :: css.flatMap fun _ => [.start, .awaitDone] := by
    simp [Script.load, ScriptLine.stimuli, List.flatMap_map]
  have hw : (Script.load ⟨v, .new :: css.map .write⟩).source.words
      = css.flatMap fun cs => (ScriptLine.write cs).words := by
    simp [Script.load, ScriptLine.words, List.flatMap_map]
  exact ⟨_, (step_new _ _ hs).trans (exec_new rfl), ⟨rfl, rfl, rfl, rfl, hw⟩, rfl, rfl⟩

/-- Settles O29: `NEW`, then each write as a transaction; the receiver reads the bits of all of them. -/
theorem scriptOfWritesRuns : Obligations.ScriptOfWritesRuns := by
  intro v css
  obtain ⟨s, hnew, hready, hcfg, htrace⟩ := step_script_new v css
  obtain ⟨k, t, hrun, ht, htrace'⟩ := run_writes hready
  rw [htrace, hcfg] at htrace'
  refine ⟨1 + k, t, (run_add 1 k _ s (run_one _ _ hnew)).trans hrun, ht.stim, ht.seq, ht.pin, ht.words,
    htrace', ?_⟩
  rw [htrace', receive_frames _ css ⟨rfl, rfl⟩ rfl]

end Sys2Proof.Machine
end

section
/-!
A source that never ends (R114): the transaction is never done.
-/
namespace Sys2Proof.Machine

open Sys2Proof.Safety

/-- The source yields a color at every fetch to come (R114). -/
def NeverEnds (src : Source) : Prop := colorsOf src.tail src.words = none

/-- Such a source answers a color, and never ends after it either. -/
theorem NeverEnds.pop {src : Source} (h : NeverEnds src) :
    (∃ c, decodeItem (src.pop).1 = some c) ∧ NeverEnds (src.pop).2 := by
  obtain ⟨words, tail⟩ := src
  unfold NeverEnds at h ⊢
  cases words with
  | nil =>
    cases tail with
    | ends => cases h
    | endless n => exact ⟨⟨_, decodeItem_colorWord _⟩, rfl⟩
  | cons w ws =>
    simp only [colorsOf] at h
    cases hd : decodeItem w with
    | none =>
      rw [hd] at h
      cases h
    | some c =>
      rw [hd] at h
      exact ⟨⟨c, hd⟩, Option.map_eq_none_iff.1 h⟩

/-- A fetch on such a source brings a color, and the source never ends after it. -/
theorem fetch_of_neverEnds {s : State} (h : NeverEnds s.source) :
    ∃ c t, fetch s = (some c, t) ∧ NeverEnds t.source := by
  obtain ⟨⟨c, hc⟩, hrest⟩ := h.pop
  obtain ⟨d, -, hf⟩ | ⟨hn, -⟩ := fetch_cases s
  · exact ⟨d, _, hf, hrest⟩
  · cases hc.symm.trans hn

/-- A transaction under way that will never be done: its source never ends, and no host acts. -/
structure Forever (s : State) : Prop where
  stim : s.stim = []
  source : NeverEnds s.source
  sending : s.seq = .fetch ∨ ∃ ch i u, s.seq = .sym ch i u ∧ ch.val < s.cfg.channels ∧ i.val < s.cfg.bits

theorem Forever.busy {s : State} (h : Forever s) : busy s = true := by
  obtain hq | ⟨ch, i, u, hq, -, -⟩ := h.sending <;> simp [Machine.busy, hq]

/-- No step ends such a transaction: a fetch brings a color, and a symbol leads to another or to a fetch. -/
theorem Forever.step {s : State} (h : Forever s) : ∃ t, step s = .next t ∧ Forever t := by
  rw [step_nil s h.stim]
  obtain hq | ⟨ch, i, u, hq, hch, hi⟩ := h.sending
  · obtain ⟨c, t, hf, hsrc⟩ := fetch_of_neverEnds h.source
    have hstim : t.stim = [] := by
      obtain ⟨d, -, hd⟩ | ⟨-, hd⟩ := fetch_cases s <;> cases hf.symm.trans hd
      exact h.stim
    exact ⟨_, sequencer_fetch_some s t c hq hf, hstim, hsrc,
      .inr ⟨_, _, _, rfl, t.cfg.channels_range.1, Nat.sub_lt t.cfg.bits_range.1 Nat.one_pos⟩⟩
  · obtain ⟨bit, hb⟩ := symBit_some s.cfg s.col ch i hch hi
    have hp := doUop_performed ((scheduleOf s.cfg bit).op u) s
    refine ⟨_, sequencer_sym s ch i u bit hq hb, hp.stim.trans h.stim, hp.source ▸ h.source, ?_⟩
    simpa using nextSeq_cases s.cfg ch i u hch hi

/-- Such a step adds no `done`. -/
theorem Forever.count_done {s t : State} (h : Forever s) (hstep : Machine.step s = .next t) :
    t.trace.count (.done .ok) = s.trace.count (.done .ok) := by
  have hgap : s.seq ≠ .gap 1 := by
    obtain hq | ⟨ch, i, u, hq, -, -⟩ := h.sending <;> rw [hq] <;> nofun
  obtain ⟨rest, -, hm⟩ := hostMove_of_step (by rw [hostOnly, h.stim]; rfl) hstep
  rw [hm.count_done, if_neg hgap, Nat.add_zero]

/-- After any number of steps the transaction is under way. -/
theorem Forever.run (k : Nat) {s : State} (h : Forever s) : ∃ t, Host.Core.run core k s = .next t ∧ Forever t
    ∧ t.trace.count (.done .ok) = s.trace.count (.done .ok) := by
  induction k generalizing s with
  | zero => exact ⟨s, rfl, h, rfl⟩
  | succ k ih =>
    obtain ⟨r, hstep, hr⟩ := h.step
    obtain ⟨t, hrun, ht, hcount⟩ := ih hr
    refine ⟨t, ?_, ht, hcount.trans (h.count_done hstep)⟩
    rw [Nat.add_comm, run_add 1 k s r (run_one s r hstep), hrun]

/-- The fetch loop of `WRITE` meets no end on such a source. -/
theorem sendAll_of_neverEnds (n : Nat) {s : State} (h : NeverEnds s.source) : sendAll n s = none := by
  induction n generalizing s with
  | zero => rfl
  | succ n ih =>
    obtain ⟨c, t, hf, hsrc⟩ := fetch_of_neverEnds h
    have hp : (sendColor c t).source = t.source := (sendColor_result c t).1.source
    simp only [sendAll, hf]
    exact ih (hp ▸ hsrc)

/-- Settles O36: after `start` the transaction is under way for ever; the loop of `WRITE` meets no end. -/
theorem endlessSourceIsNeverDone : Obligations.EndlessSourceIsNeverDone := by
  refine ⟨fun s hq hs hc k => ?_, fun s hq hc => ?_⟩
  · have hf : Forever (begin { s with stim := [] }) := ⟨rfl, hc, .inl rfl⟩
    have hstart : (begin { s with stim := [] }).trace.count (.done .ok) = s.trace.count (.done .ok) :=
      count_trace_cons (.done .ok) (begin_log s)
    obtain ⟨t, hrun, ht, hcount⟩ := hf.run k
    refine ⟨t, ?_, ht.busy, hcount.trans hstart⟩
    rw [Nat.add_comm, run_add 1 k s _ (run_one _ _ (step_start_idle hs hq)), hrun]
  · have hn : NeverEnds (begin s).source := hc
    rw [exec, execWrite, if_pos hq, sendAll_of_neverEnds _ hn]
    rfl

end Sys2Proof.Machine
end

section
/-!
The step and the sequencer (R56 to R59, R106, R115), and the outputs (R16).
-/
namespace Sys2Proof.Machine

open Sys2Proof.Safety

/-- A schedule's micro-operation is the operation of its name. -/
theorem exec_uop (u : Uop) (s : State) : exec u.instr s = .next (doUop u s) := by
  cases u <;> rfl

/-- Where the sequencer goes after a micro-operation of a symbol, in the numbers of R106. -/
theorem nextSeq_eq (cfg : Config) (ch : Fin 3) (i : Fin 8) (u : Fin 5) : nextSeq cfg ch i u =
    if h : u.val < 4 then .sym ch i ⟨u.val + 1, by omega⟩
    else if h' : 0 < i.val then .sym ch ⟨i.val - 1, by omega⟩ 0
    else if h'' : ch.val < 2 ∧ ch.val + 1 < cfg.channels then channelStart cfg ⟨ch.val + 1, by omega⟩
    else .fetch := by
  have hmax := cfg.channels_range
  by_cases hu : u.val < 4
  · rw [dif_pos hu, nextSeq_inside cfg ch i u hu]
  · obtain rfl : u = 4 := by omega
    rw [dif_neg hu, nextSeq_last]
    by_cases hi : 0 < i.val
    · rw [dif_pos hi, dif_pos hi]
    · rw [dif_neg hi, dif_neg hi]
      by_cases hc : ch.val + 1 < cfg.channels
      · rw [dif_pos hc, dif_pos ⟨by omega, hc⟩]
      · rw [dif_neg hc, dif_neg fun h => hc h.2]

/-- In the wire format of this hardware the channels are green, red and blue, of eight bits each (R12, R32). -/
theorem symBit_wireFormat (cfg : Config) (c : Color) (ch : Fin 3) (i : Fin 8) (h : cfg.wireFormat) :
    symBit cfg c ch i = some ((match ch with | 0 => c.g | 1 => c.r | 2 => c.b).getLsbD i.val) := by
  rw [symBit, if_pos (by rw [h.1]; exact i.isLt), chan, h.2]
  fin_cases ch <;> rfl

/-- The fetch is the operation `F`, and the step moves `seq` by its answer (R106). -/
theorem sequencer_fetch (s : State) (hq : s.seq = .fetch) : sequencer s = .next { (fetch s).2 with
    seq := if (fetch s).1.isSome then channelStart s.cfg 0 else .gap s.cfg.gapTicks } := by
  obtain ⟨c, -, hf⟩ | ⟨-, hf⟩ := fetch_cases s
  · rw [sequencer_fetch_some s _ c hq hf, hf]
    rfl
  · rw [sequencer_fetch_none s _ hq hf, hf]
    rfl

/-- Settles O32: the sequencer's action in each state is the operation named, and `seq` moves as R106 says. -/
theorem sequencerRunsTheSelectedOperation : Obligations.SequencerRunsTheSelectedOperation := by
  refine ⟨fun s ch i u bit hs hq hb => ?_, fun s ch i u hs hq hb => ?_, fun cfg c ch i hf => ?_,
    fun s hs hq => ?_, fun s n hs hq => ?_, fun s hs hq => ?_⟩
  · refine ⟨_, exec_uop _ s, ?_⟩
    rw [step_nil s hs, sequencer_sym s ch i u bit hq hb, nextSeq_eq]
  · rw [step_nil s hs, sequencer_sym_none s ch i u hq hb]
  · exact ⟨symBit_wireFormat cfg c ch i hf, channelStart_of_bits cfg ch hf.1⟩
  · exact ⟨(fetch s).2, (fetch s).1, rfl, fetch_log s, (step_nil s hs).trans (sequencer_fetch s hq)⟩
  · exact ⟨opW s, rfl, (step_nil s hs).trans (sequencer_gap_more s n hq)⟩
  · exact ⟨opW s, rfl, (step_nil s hs).trans (sequencer_gap_one s hq)⟩

/-- Settles O33: the step of each stimulus. -/
theorem stepRunsTheDecodedOperation : Obligations.StepRunsTheDecodedOperation :=
  ⟨fun s p w rest i hs _ hd => step_alone_ok s p w rest i hs hd, step_alone_error, step_new,
    fun _ _ hs hq => step_start_idle hs hq⟩

/-- Settles O34: the word placed is the next stimulus, and it decodes to the operation. -/
theorem tableWordRunsNext : Obligations.TableWordRunsNext := by
  intro s nbits w i h
  have hd : decode (tablePlace nbits (w % 2 ^ nbits)) (w % 2 ^ nbits) = .ok i := by
    unfold decodeTableWord at h
    split at h
    · next j hj =>
      cases h
      exact hj
    · cases h
  exact step_alone_ok _ _ _ s.stim i rfl hd

/-- The sequencer has no action in `UNBOUND` and `IDLE` (R106). -/
theorem sequencer_of_not_busy (s : State) (hq : s.seq = .unbound ∨ s.seq = .idle) : sequencer s = .next s :=
  hq.elim (sequencer_unbound s) (sequencer_idle s)

/-- Settles O35: without a strobe the step is the sequencer's, which has no action there, or ends the wait. -/
theorem nothingHappensWithoutTheHost : Obligations.NothingHappensWithoutTheHost := by
  refine fun s hq => ⟨fun hs => (step_nil s hs).trans (sequencer_of_not_busy s hq), fun rest hs => ?_⟩
  obtain hs | hs := hs
  · rw [step_pass s rest hs, sequencer_of_not_busy { s with stim := rest } hq]
  · rw [step_awaitDone s rest hs, (busy_eq_false_iff s).2 hq]
    rfl

/-- Settles O52: `busy` leaves out `UNBOUND` and `IDLE`; the strobes are read off `seq`. -/
theorem statusOutputs : Obligations.StatusOutputs := by
  refine fun s => ⟨rfl, ?_, decide_eq_true_iff, decide_eq_true_iff⟩
  show busy s = true ↔ _
  rw [← Bool.not_eq_false, busy_eq_false_iff, not_or]

end Sys2Proof.Machine
end

section
/-!
Reset, building a block, and the block in every build (R5, R22, R90, R125).
-/
namespace Sys2Proof.Machine

open Sys2Proof.Safety

/-- Settles O50: the two states are closed terms. -/
theorem resetIsConstruction : Obligations.ResetIsConstruction :=
  ⟨rfl, rfl, rfl, rfl, rfl, rfl, rfl, rfl, rfl, rfl, rfl, rfl⟩

/-- A block that is built has passed every check and stands before construction, configured as asked. -/
theorem build_next {o : BuildOptions} {s : State} (h : build o = .next s) :
    (o.strictFaults = false ∧ 0 < o.gapTicks ∧ o.inRange ∧ degTableOf o.deg0 o.deg1 = some s.cfg.degTable)
    ∧ s.seq = .unbound ∧ s.cfg.variant = o.variant ∧ s.cfg.gapTicks = o.gapTicks
    ∧ s.cfg.symTicks = o.symTicks ∧ s.cfg.bits = o.bits ∧ s.cfg.channels = o.channels
    ∧ s.cfg.channelOrder = o.channelOrder ∧ s.cfg.tickHz = o.tickHz
    ∧ s.cfg.toggleLatency = o.toggleLatency := by
  unfold build at h
  split at h
  · cases h
  · next hstrict =>
    split at h
    · cases h
    · next d hd =>
      split at h
      · next hg =>
        split at h
        · next hr =>
          cases h
          exact ⟨⟨by simpa using hstrict, hg, hr, hd⟩, rfl, rfl, rfl, rfl, rfl, rfl, rfl, rfl, rfl⟩
        · cases h
      · cases h

/-- What passes every check is built. -/
theorem build_of_checks {o : BuildOptions} {d : DegTable} (hs : o.strictFaults = false) (hg : 0 < o.gapTicks)
    (hr : o.inRange) (hd : degTableOf o.deg0 o.deg1 = some d) : ∃ s, build o = .next s := by
  unfold build
  rw [if_neg (by rw [hs]; nofun)]
  simp only [hd, dif_pos hg, dif_pos hr]
  exact ⟨_, rfl⟩

/-- Settles O51: the checks of `build`, both ways. -/
theorem buildRefusesBadConfigurations : Obligations.BuildRefusesBadConfigurations := by
  refine ⟨fun o => ⟨fun ⟨s, h⟩ => ?_, fun ⟨hs, hg, hr, d, hd⟩ => build_of_checks hs hg hr hd⟩, fun o s h => ?_⟩
  · obtain ⟨⟨hs, hg, hr, hd⟩, -⟩ := build_next h
    exact ⟨hs, hg, hr, _, hd⟩
  · obtain ⟨⟨-, -, -, hd⟩, hq, hv, hgap, hsym, hbits, hch, hord, hhz, hlat⟩ := build_next h
    exact ⟨hq, hv, hgap, hsym, hbits, hch, hord, hhz, hlat, hd⟩

/-- `Byte(v)` in every build, its bits selected by arithmetic (R86, R88). -/
theorem byteOps_eq_flatMap (cfg : Config) (v : Byte) : byteOps cfg v
    = (List.range cfg.bits).reverse.flatMap fun i =>
        (symtab cfg.degTable cfg.variant (decide (v.toNat / 2 ^ i % 2 = 1))).toList := by
  rw [byteOps, symbolOps, byteBits, bitsDown, List.flatMap_map]
  simp only [BitVec.getLsbD, Nat.testBit_eq_decide_div_mod_eq]
  rfl

/-- Settles O56: `BYTE` and `COLOR` perform their lists in every build, and the steps of a color are those of its
list. -/
theorem otherParametersResult : Obligations.OtherParametersResult := by
  refine ⟨fun v s => ?_, fun c s => ?_⟩
  · obtain ⟨hperf, hpin, -⟩ := sendByte_result v s
    obtain ⟨hw, -, -, hlen, -⟩ := byteOps_counts s.cfg v
    refine ⟨byteOps s.cfg v, sendByte v s, byteOps_eq_flatMap s.cfg v, rfl, hperf, ?_, ?_, hpin⟩
    · rw [hw, s.cfg.symTicks_eq]
    · rw [hlen, Config.symOps, s.cfg.symTicks_eq]
  · obtain ⟨hperf, hpin, -⟩ := sendColor_result c s
    obtain ⟨hw, -, -, hlen, -⟩ := colorOps_counts s.cfg c
    refine ⟨colorOps s.cfg c, sendColor c s, rfl, rfl, hperf, hw, hlen, hpin, ?_⟩
    rintro hs rfl hq
    have hrun := run_color s (.inl hs)
    rw [← hq] at hrun
    exact hrun

end Sys2Proof.Machine
end

section
/-!
Times in seconds (R19, R154 to R156), where no wait of the run fails (R123).
-/
namespace Sys2Proof.Machine

open Sys2Proof.Safety

/-- A part of a tick lasts some time and at most the tick. -/
theorem partTick_range (cfg : Config) {x : ℚ} (h : 0 < x ∧ x ≤ 1) :
    0 < x * tickPeriodNs cfg ∧ x * tickPeriodNs cfg ≤ tickPeriodNs cfg :=
  ⟨mul_pos h.1 (tickPeriodNs_pos cfg), mul_le_of_le_one_left (tickPeriodNs_pos cfg).le h.2⟩

/-- Three ticks of this hardware last a microsecond (R5). -/
theorem tickPeriodNs_standard : tickPeriodNs Config.standard * 3 = 1000 := by
  norm_num [tickPeriodNs, Config.standard]

/-- The nominal duration of `3 n` ticks of this hardware: `n` microseconds. -/
theorem nominalNs_standard (n : Nat) : nominalNs Config.standard (3 * n) = 1000 * n := by
  rw [nominalNs, ← tickPeriodNs_standard]
  push_cast
  ring

/-- The duration of a frame where no wait fails. -/
theorem frameNs_of_timerSound {s : State} (n : Nat) (h : timerSound s = true) : frameNs s n
    = nominalNs s.cfg (s.cfg.colorTicks * n + s.cfg.gapTicks) + interval0 (begin s) * tickPeriodNs s.cfg := by
  rw [frameNs, if_pos h]

/-- Settles O53: each duration is a number of microseconds, and the frame's has interval 0 besides. -/
theorem nominalDurations : Obligations.NominalDurations := by
  refine ⟨?_, ?_, ?_, ?_, fun s n hc ht => ⟨?_, partTick_range _ (interval0_range _)⟩⟩
  · exact (nominalNs_standard 1).trans (by norm_num)
  · exact (nominalNs_standard 8).trans (by norm_num)
  · exact (nominalNs_standard 24).trans (by norm_num)
  · exact (nominalNs_standard 300).trans (by norm_num)
  · have hticks : Config.standard.colorTicks * n + Config.standard.gapTicks = 3 * (24 * n + 300) := by
      show 72 * n + 900 = _
      ring
    rw [frameNs_of_timerSound n ht, hc, hticks, nominalNs_standard]
    push_cast
    ring

/-- How long a wait blocks where no wait fails: a part of a tick, or a whole one. -/
theorem waitNs_of_timerSound {s : State} (h : timerSound s = true) : waitNs s
    = (if busy s then (if 0 < s.tickno then 1 else interval0 s) else phase s.log) * tickPeriodNs s.cfg := by
  rw [waitNs, if_pos h]

/-- Settles O54: the part of a tick that a wait blocks for is in its range, and 1 for a transaction's later
waits. -/
theorem waitingTimes : Obligations.WaitingTimes := by
  intro s h
  have hrange : 0 < (if busy s then (if 0 < s.tickno then 1 else interval0 s) else phase s.log)
      ∧ (if busy s then (if 0 < s.tickno then 1 else interval0 s) else phase s.log) ≤ 1 := by
    split
    · split
      · norm_num
      · exact interval0_range s
    · exact phase_range s.log
  rw [waitNs_of_timerSound h]
  obtain ⟨hpos, hle⟩ := partTick_range s.cfg hrange
  refine ⟨hpos, hle, fun hb ht => ?_, fun hc => ?_⟩
  · rw [if_pos hb, if_pos ht, one_mul]
  · rw [hc, tickPeriodNs_standard]

/-- Every latency is above 0 (R156). -/
theorem latencyNs_pos (cfg : Config) (e : Edge) : 0 < latencyNs cfg e := by
  unfold latencyNs
  split
  · next t _ =>
    obtain ⟨hrise, hfall, hpulse⟩ := t.positive
    cases e
    · exact hrise
    · exact hfall
    · exact hpulse
  · split
    · assumption
    · norm_num

/-- The high time of a symbol with ticks in it (R89, R156). -/
theorem highTimeNs_of_ticks (cfg : Config) {σ : Schedule} {n : Nat} (h : σ.highTicks = n) (hn : n ≠ 0) :
    highTimeNs cfg σ = n * tickPeriodNs cfg + latencyNs cfg .fall - latencyNs cfg .rise := by
  rw [highTimeNs, h, if_neg hn, nominalNs]

/-- Settles O55: the high ticks of each row but the degraded 0 are above 0; that row's are 0. -/
theorem pulseWidths : Obligations.PulseWidths := by
  refine ⟨latencyNs_pos, fun cfg t ht => ?_, fun cfg d => ?_, fun cfg d v b ticks hv hticks => ?_⟩
  · simp only [latencyNs, ht]
    exact ⟨rfl, rfl, rfl⟩
  · exact if_pos (by cases d <;> rfl)
  · have hhigh : (symtab d v b).highTicks = ticks ∧ ticks ≠ 0 := by
      subst hticks
      revert hv
      cases d <;> cases v <;> cases b <;> decide
    have htime := highTimeNs_of_ticks cfg hhigh.1 hhigh.2
    refine ⟨htime, fun he => ?_⟩
    rw [htime, he, add_sub_cancel_right]

/-- A fetch is no tick (R6). -/
@[simp] theorem fetch_tickno (s : State) : (fetch s).2.tickno = s.tickno := by
  obtain ⟨c, -, hf⟩ | ⟨-, hf⟩ := fetch_cases s <;> rw [hf]

/-- The state in which the first wait of a transaction is called: after `start` and the first fetch. -/
def firstWait (s : State) : State :=
  { (fetch (begin { s with stim := [] })).2 with
    seq := if (fetch (begin { s with stim := [] })).1.isSome then channelStart s.cfg 0 else .gap s.cfg.gapTicks }

theorem firstWait_seq (s : State) :
    (firstWait s).seq = channelStart s.cfg 0 ∨ (firstWait s).seq = .gap s.cfg.gapTicks := by
  show (if _ then _ else _ : Seq) = _ ∨ (if _ then _ else _ : Seq) = _
  split
  · exact .inl rfl
  · exact .inr rfl

theorem firstWait_busy (s : State) : busy (firstWait s) = true := by
  obtain hq | hq := firstWait_seq s <;> simp [busy, hq, channelStart]

theorem firstWait_cfg (s : State) : (firstWait s).cfg = s.cfg := fetch_cfg _

theorem firstWait_tickno (s : State) : (firstWait s).tickno = 0 := fetch_tickno _

theorem firstWait_interval0 (s : State) : interval0 (firstWait s) = interval0 (begin s) := interval0_fetch _

/-- `start` and a fetch leave the timer as sound as it was. -/
theorem firstWait_timerSound (s : State) : timerSound (firstWait s) = timerSound s := timerSound_fetch _

/-- Two steps from `IDLE` lead to the first wait (R106). -/
theorem run_firstWait {s : State} (hq : s.seq = .idle) (hs : s.stim = [.start]) :
    Host.Core.run core 2 s = .next (firstWait s) :=
  (run_add 1 1 _ _ (run_one _ _ (step_start_idle hs hq))).trans
    (run_one _ _ ((step_nil _ rfl).trans (sequencer_fetch _ rfl)))

/-- Settles O58: `start` and the fetch take no time and no tick, so the first wait blocks for interval 0. -/
theorem frameBeginsWithItsFirstWait : Obligations.FrameBeginsWithItsFirstWait := by
  intro s hq hs ht
  have hwait : waitNs (firstWait s) = interval0 (begin s) * tickPeriodNs s.cfg := by
    rw [waitNs_of_timerSound ((firstWait_timerSound s).trans ht), if_pos (firstWait_busy s),
      firstWait_tickno, if_neg (lt_irrefl 0), firstWait_interval0, firstWait_cfg]
  refine ⟨firstWait s, run_firstWait hq hs, firstWait_busy s, firstWait_tickno s, firstWait_seq s, hwait, fun n => ?_⟩
  rw [frameNs_of_timerSound n ht, hwait, add_comm]

end Sys2Proof.Machine
end
